-- ==== Sys2Proof/Word.lean ====
section
/-! DEFINITION. The one word type of the machine (spec/00_scope.md R8): register contents, memory cells, the
program counter, addresses, immediates and emitted values are all unsigned 8-bit values. -/

namespace Sys2Proof

/-- An unsigned 8-bit value, 0 to 255; sums and products wrap modulo 256 (R8, R15). -/
abbrev Byte := BitVec 8

end Sys2Proof
end

