-- ==== Sys2Proof/Config.lean ====
section
/-! DEFINITION. The implementation parameters of spec/00_scope.md R5. Those with a fixed value are constants; the
two that R5 marks *open* ("an argument of the model") are the fields of `Config`. No value of this hardware is
left free, so there is no opaque constant here. -/

namespace Sys2Proof

/-- The two open parameters of R5.
DESIGN CHOICE (log 1, safe): they are carried in the machine's state, because `exec` and `step` take no other
argument; no step writes them, so every statement about all states covers every choice of both. -/
structure Config where
  /-- `AND_OPCODE`, the opcode byte of AND (30_encoding.md R66). -/
  andOpcode  : Byte
  /-- `STACK_GUARD = on` (42_stack.md R105). -/
  stackGuard : Bool
  deriving DecidableEq, Repr

namespace Config

/-- The values this hardware takes (R5, decisions D1 and D7).
PRESUMED (log 2, unsafe): `AND_OPCODE = 0xA8`, from general knowledge of the LS8.
DESIGN CHOICE (log 3, unsafe): `STACK_GUARD = off`. -/
def default : Config where
  andOpcode := 0xA8#8
  stackGuard := false

/-- `SP_RESET` (R5; stated by the source). -/
def spReset : Byte := 0xF4#8

/-- `PC_RESET` (R5, decision D2). DESIGN CHOICE (log 4, unsafe): the source states none. -/
def pcReset : Byte := 0x00#8

/-- `GPR_RESET`, the reset value of `x[0]` to `x[6]` (R5, decision D4).
DESIGN CHOICE (log 6, unsafe): a reading of a sentence about memory. -/
def gprReset : Byte := 0x00#8

/-- `LOAD_BASE`, where the host's loader puts the first program byte (R5, 20_memory.md R48). -/
def loadBase : Byte := 0x00#8

/-- `MEM_SIZE`, the number of memory cells (R5). -/
def memSize : Nat := 256

/-- What a memory cell holds that nothing has written since reset (`MEM_RESET` of R5; 20_memory.md R41). -/
def memReset : Byte := 0x00#8

/-- The ISA string (R1). DESIGN CHOICE (log 19, safe): the spec's own label, decision D23. -/
def isaString : String := "LS8-cjogles-14"

end Config

end Sys2Proof
end

