-- ==== Sys2Proof/Syntax.lean ====
section
/-! DEFINITION. The instructions: one constructor per row of spec/opcode_table.json, in the table's order. -/

namespace Sys2Proof

/-- An instruction with its operand bytes exactly as they stand in memory (30_encoding.md R62).
A register operand is the whole byte: R63 never masks it, and a byte above 7 is an instruction too, one whose
meaning is to raise InvalidRegisterIndex (60_exceptions.md R122).
DESIGN CHOICE (log 20, safe): the check is the handler's, as in R71, not the decoder's. -/
inductive Instr where
  /-- HLT (R80). -/
  | hlt
  /-- LDI reg, imm8 (R81). -/
  | ldi (reg imm : Byte)
  /-- PRN reg (R82). -/
  | prn (reg : Byte)
  /-- MUL regA, regB (R91). -/
  | mul (regA regB : Byte)
  /-- ADD regA, regB (R92). -/
  | add (regA regB : Byte)
  /-- CMP regA, regB (R93). -/
  | cmp (regA regB : Byte)
  /-- AND regA, regB (R94). -/
  | and (regA regB : Byte)
  /-- PUSH reg (R103). -/
  | push (reg : Byte)
  /-- POP reg (R104). -/
  | pop (reg : Byte)
  /-- CALL reg (R111). -/
  | call (reg : Byte)
  /-- RET (R112). -/
  | ret
  /-- JMP reg (R113). -/
  | jmp (reg : Byte)
  /-- JNE reg (R114). -/
  | jne (reg : Byte)
  /-- JEQ reg (R115). -/
  | jeq (reg : Byte)
  deriving DecidableEq, Repr

end Sys2Proof
end

