-- ==== Sys2Proof/WellFormed.lean ====
section
/-! DEFINITION. Which instructions are well formed. The only thing that can be ill formed in an instruction with a
known opcode is a register operand byte above 7 (30_encoding.md R63, R69); LDI's immediate takes every value (R64).
Being ill formed does not keep an instruction from running: its meaning raises InvalidRegisterIndex. -/

namespace Sys2Proof

/-- The operand bytes in register positions, `op1` before `op2` (R62; the order of the checks is
60_exceptions.md R128). -/
def Instr.regOperands : Instr → List Byte
  | .hlt => []
  | .ldi reg _ => [reg]
  | .prn reg => [reg]
  | .mul regA regB => [regA, regB]
  | .add regA regB => [regA, regB]
  | .cmp regA regB => [regA, regB]
  | .and regA regB => [regA, regB]
  | .push reg => [reg]
  | .pop reg => [reg]
  | .call reg => [reg]
  | .ret => []
  | .jmp reg => [reg]
  | .jne reg => [reg]
  | .jeq reg => [reg]

/-- A register operand byte is legal when it names one of `x[0]` to `x[7]` (R63). -/
def legalRegByte (b : Byte) : Bool := decide (b.toNat < 8)

/-- Every register operand byte of the instruction is legal. -/
def Instr.wellFormed (i : Instr) : Bool := i.regOperands.all legalRegByte

end Sys2Proof
end

