-- ==== Sys2Proof/Decode.lean ====
section
/-! DEFINITION. Decoding and encoding (spec/30_encoding.md R60 to R73). The decoder dispatches on the whole opcode
byte (R61); the encoder is written from R65's table on its own. Both take the configuration, because the opcode of
AND is a parameter (R66). -/

namespace Sys2Proof

/-- The fourteen mnemonics of R65. -/
inductive Mnemonic where
  | hlt | ldi | prn | mul | add | cmp | and | push | pop | call | ret | jmp | jne | jeq
  deriving DecidableEq, Repr

/-- Why the decoder refuses some bytes. -/
inductive DecodeError where
  /-- The opcode byte is none of the fourteen values (R67). -/
  | unknownInstruction (opcode : Byte)
  /-- The list ends before the last operand byte; never at a fetch, which reads round the top of memory. -/
  | truncated
  deriving DecidableEq, Repr

/-- The opcode map of R65 as rows, less AND, whose byte is a parameter. -/
def fixedRows : List (Byte × Mnemonic) :=
  [(0b00000001#8, .hlt), (0b10000010#8, .ldi), (0b01000111#8, .prn), (0b10100010#8, .mul), (0b10100000#8, .add),
   (0b10100111#8, .cmp), (0b01000101#8, .push), (0b01000110#8, .pop), (0b01010000#8, .call), (0b00010001#8, .ret),
   (0b01010100#8, .jmp), (0b01010110#8, .jne), (0b01010101#8, .jeq)]

/-- The thirteen opcode values that R65 fixes. -/
def fixedOpcodes : List Byte := fixedRows.map Prod.fst

/-- The operand count `n = ir[7:6]` of an opcode byte (R60, R61). -/
def operandCount (ir : Byte) : Nat := ir.toNat >>> 6

/-- The length in bytes, `ir[7:6] + 1` (R60). -/
def lengthOfOpcode (ir : Byte) : Nat := operandCount ir + 1

/-- A legal choice of the open parameters: `AND_OPCODE` differs from the thirteen other opcodes and has operand
count 2 (R66, conditions (a) and (b)); `STACK_GUARD` may be either. -/
def Config.legal (c : Config) : Bool :=
  !fixedOpcodes.contains c.andOpcode && operandCount c.andOpcode == 2

/-- Dispatch on the opcode byte (R61, R65, R71 step 3): `none` is UnknownInstruction. AND's byte is looked at last,
so that 0xA0 is ADD and never AND (R66), whatever the parameter. -/
def decodeOpcode (c : Config) (ir : Byte) : Option Mnemonic :=
  match fixedRows.find? fun row => row.1 == ir with
  | some row => some row.2
  | none => if ir = c.andOpcode then some .and else none

/-- Format F1R (R62): one operand byte. -/
def oneOperand (mk : Byte → Instr) : List Byte → Except DecodeError (Instr × List Byte)
  | op1 :: rest => .ok (mk op1, rest)
  | [] => .error .truncated

/-- Formats F2RR and F2RI (R62): two operand bytes. -/
def twoOperands (mk : Byte → Byte → Instr) : List Byte → Except DecodeError (Instr × List Byte)
  | op1 :: op2 :: rest => .ok (mk op1 op2, rest)
  | [_] => .error .truncated
  | [] => .error .truncated

/-- The operand bytes of an instruction, by its format (R62, R65). -/
def decodeOperands (m : Mnemonic) (bytes : List Byte) : Except DecodeError (Instr × List Byte) :=
  match m with
  | .hlt => .ok (.hlt, bytes)
  | .ldi => twoOperands .ldi bytes
  | .prn => oneOperand .prn bytes
  | .mul => twoOperands .mul bytes
  | .add => twoOperands .add bytes
  | .cmp => twoOperands .cmp bytes
  | .and => twoOperands .and bytes
  | .push => oneOperand .push bytes
  | .pop => oneOperand .pop bytes
  | .call => oneOperand .call bytes
  | .ret => .ok (.ret, bytes)
  | .jmp => oneOperand .jmp bytes
  | .jne => oneOperand .jne bytes
  | .jeq => oneOperand .jeq bytes

/-- The decoder: total on any bytes (R73), the instruction at their head and the bytes after it, or why not. -/
def decode (c : Config) : List Byte → Except DecodeError (Instr × List Byte)
  | [] => .error .truncated
  | ir :: bytes =>
    match decodeOpcode c ir with
    | some m => decodeOperands m bytes
    | none => .error (.unknownInstruction ir)

/-! ### The encoder -/

/-- The mnemonic of an instruction. -/
def Instr.mnemonic : Instr → Mnemonic
  | .hlt => .hlt
  | .ldi _ _ => .ldi
  | .prn _ => .prn
  | .mul _ _ => .mul
  | .add _ _ => .add
  | .cmp _ _ => .cmp
  | .and _ _ => .and
  | .push _ => .push
  | .pop _ => .pop
  | .call _ => .call
  | .ret => .ret
  | .jmp _ => .jmp
  | .jne _ => .jne
  | .jeq _ => .jeq

/-- The opcode byte of a mnemonic: the "hex" column of R65's table; AND's is the parameter (R66). -/
def opcode (c : Config) : Mnemonic → Byte
  | .hlt => 0x01#8
  | .ldi => 0x82#8
  | .prn => 0x47#8
  | .mul => 0xA2#8
  | .add => 0xA0#8
  | .cmp => 0xA7#8
  | .and => c.andOpcode
  | .push => 0x45#8
  | .pop => 0x46#8
  | .call => 0x50#8
  | .ret => 0x11#8
  | .jmp => 0x54#8
  | .jne => 0x56#8
  | .jeq => 0x55#8

/-- The bytes after the opcode, in address order (R62, 20_memory.md R45). -/
def Instr.operandBytes : Instr → List Byte
  | .hlt => []
  | .ldi reg imm => [reg, imm]
  | .prn reg => [reg]
  | .mul regA regB => [regA, regB]
  | .add regA regB => [regA, regB]
  | .cmp regA regB => [regA, regB]
  | .and regA regB => [regA, regB]
  | .push reg => [reg]
  | .pop reg => [reg]
  | .call reg => [reg]
  | .ret => []
  | .jmp reg => [reg]
  | .jne reg => [reg]
  | .jeq reg => [reg]

/-- The bytes of an instruction, lowest address first (R60). -/
def encode (c : Config) (i : Instr) : List Byte := opcode c i.mnemonic :: i.operandBytes

/-! ### Whole words, as spec/opcode_table.json numbers their bits -/

/-- The three bytes (the longest instruction) that a number of `nbits` bits stands for: byte 0 is its least
significant byte, and every bit from `nbits` up is 0. -/
def bytesOfWord (nbits w : Nat) : List Byte :=
  let v := w % 2 ^ nbits
  [BitVec.ofNat 8 v, BitVec.ofNat 8 (v / 256), BitVec.ofNat 8 (v / 65536)]

/-- What the decoder reads from the word `w`, with this hardware's parameters. -/
def decodeTableWord (nbits w : Nat) : Option Instr :=
  match decode Config.default (bytesOfWord nbits w) with
  | .ok (i, _) => some i
  | .error _ => none

end Sys2Proof
end

