-- ==== Sys2Proof/Machine/State.lean ====
section
/-! DEFINITION. The state of the machine: the closed list of spec/10_state.md R10, as plain data, and its value
right after reset (R30). -/

namespace Sys2Proof.Machine

/-- The three independent condition codes of 10_state.md R20. -/
@[ext] structure Flags where
  /-- Less. -/
  L : Bool
  /-- Greater. -/
  G : Bool
  /-- Equal. -/
  E : Bool
  deriving DecidableEq, Repr

/-- The run status (10_state.md R24). HALTED and FAULTED together are the source's "halted"
(decision D11; DESIGN CHOICE, log 11, safe). -/
inductive Status where
  /-- RUNNING: the engine takes a step. -/
  | running
  /-- HALTED: an HLT was executed; normal termination. -/
  | halted
  /-- FAULTED: a fault was raised; abnormal termination. -/
  | faulted
  deriving DecidableEq, Repr

/-- The causes of a fault of the machine (60_exceptions.md R120). -/
inductive FaultCause where
  | unknownInstruction
  | invalidRegisterIndex
  /-- Only with `STACK_GUARD = on`. -/
  | stackOverflow
  /-- Only with `STACK_GUARD = on`. -/
  | stackUnderflow
  deriving DecidableEq, Repr

/-- The fault record (10_state.md R25). -/
structure FaultRecord where
  cause   : FaultCause
  /-- `pc` of the faulting instruction's opcode byte. -/
  address : Byte
  /-- The byte fetched there (`ir`). -/
  opcode  : Byte
  /-- The offending operand byte for InvalidRegisterIndex, absent otherwise. -/
  detail  : Option Byte
  deriving DecidableEq, Repr

/-- Memory (10_state.md R27, 20_memory.md R40): the cells that do not hold their reset value, as (address, byte)
pairs in strictly rising order of address; an unlisted address reads `Config.memReset` (R41). -/
abbrev Memory := List Host.Cell

/-- The complete architectural state (10_state.md R10) and, as the model's own field, the parameters. -/
structure State where
  /-- The open parameters of 00_scope.md R5; the model's own field, written by no step
  (DESIGN CHOICE, log 1, safe). -/
  cfg    : Config
  /-- `x[0]` to `x[7]`; `x[7]` is the stack pointer (R11, R12). -/
  regs   : Vector Byte 8
  /-- The program counter (R16). -/
  pc     : Byte
  /-- `L`, `G`, `E` (R20). -/
  flags  : Flags
  /-- `mem[0]` to `mem[255]` (R27). -/
  mem    : Memory
  /-- The run status (R24). -/
  status : Status
  /-- The fault record, `none` while it is not valid (R25, R30). -/
  fault  : Option FaultRecord
  /-- The output stream, oldest value first (R28). -/
  out    : List Byte
  deriving DecidableEq, Repr

/-- Why a step does not happen. A fault of the MACHINE is not one of these: it is a next state whose status is
FAULTED (60_exceptions.md R126). Raised by `step` only, and safe: the hardware takes no step there either
(30_encoding.md R71, "in HALTED or FAULTED there is no step"; DESIGN CHOICE of the form, log 11). -/
inductive Fault where
  /-- `step` in the terminal state HALTED (10_state.md R24). Safe. -/
  | noStepHalted
  /-- `step` in the terminal state FAULTED (10_state.md R24, 60_exceptions.md R129). Safe. -/
  | noStepFaulted
  deriving DecidableEq, Repr

/-- Why the model has no meaning for an instruction. -/
inductive Refusal where
  /-- Raised by an arm of `exec` whose instruction has no meaning yet. Safe. No arm of this model raises it. -/
  | notModelled (mnemonic : String)
  deriving DecidableEq, Repr

/-- What executing an instruction, or a step, answers. -/
abbrev Result := Host.Outcome State Fault Refusal

/-- The state after reset of a machine with the given parameters (10_state.md R30, 70_reset_and_hazards.md R140).
The values of `pc`, the flags and `x[0]` to `x[6]` are decided by the spec, not given by the source
(DESIGN CHOICE, logs 4, 5, 6, unsafe). -/
def State.resetWith (cfg : Config) : State where
  cfg := cfg
  regs := (Vector.replicate 8 Config.gprReset).set 7 Config.spReset
  pc := Config.pcReset
  flags := { L := false, G := false, E := false }
  mem := []
  status := .running
  fault := none
  out := []

/-- This hardware right after reset: the parameters at the values R5 gives them. -/
def State.reset : State := State.resetWith Config.default

end Sys2Proof.Machine
end

