-- ==== Sys2Proof/Machine/Ops.lean ====
section
/-! DEFINITION. The operations every meaning is written over: memory, registers, the program counter, the stack,
the output port, taking a fault, and what the host does before a run. -/

namespace Sys2Proof.Machine

/-! ### Memory (spec/20_memory.md) -/

/-- The value of the cell with key `a`; `Config.memReset` where none is listed (R41). -/
def Memory.readCell (a : Nat) : Memory → Byte
  | [] => Config.memReset
  | (b, v) :: rest => if a = b then v else Memory.readCell a rest

/-- Sets the cell with key `a`, keeping the canonical form: writing the reset value removes the entry. -/
def Memory.writeCell (a : Nat) (v : Byte) : Memory → Memory
  | [] => if v = Config.memReset then [] else [(a, v)]
  | (b, w) :: rest =>
    if a < b then (if v = Config.memReset then (b, w) :: rest else (a, v) :: (b, w) :: rest)
    else if a = b then (if v = Config.memReset then rest else (a, v) :: rest)
    else (b, w) :: Memory.writeCell a v rest

/-- The canonical form of the cells with keys from `lo` up: keys strictly rising and inside the address space, no
entry equal to what an unlisted address reads as. -/
def Memory.wfFrom (lo : Nat) : Memory → Bool
  | [] => true
  | (a, v) :: rest =>
    decide (lo ≤ a) && decide (a < Config.memSize) && v != Config.memReset && Memory.wfFrom (a + 1) rest

/-- The canonical form of memory: equal memories are equal lists. -/
def Memory.wf (m : Memory) : Bool := m.wfFrom 0

/-- `MemRead(addr, 1)` (R41). An address is 8 bits, so it is always inside memory (R42; the wrap is decision D5,
DESIGN CHOICE, log 7, unsafe). -/
def Memory.read (m : Memory) (addr : Byte) : Byte := m.readCell addr.toNat

/-- `MemWrite(addr, 1, v)` (R41). -/
def Memory.write (m : Memory) (addr v : Byte) : Memory := m.writeCell addr.toNat v

/-- Writes bytes at `addr` upward, wrapping at the top of memory; used by the host's load only. -/
def Memory.writeBytes (m : Memory) (addr : Byte) : List Byte → Memory
  | [] => m
  | v :: vs => Memory.writeBytes (m.write addr v) (addr + 1) vs

/-! ### Registers (spec/10_state.md R11 to R15) -/

/-- A register index, 0 to 7 (R14). -/
abbrev RegIdx := Fin 8

/-- `SP_INDEX`: `x[7]` is the stack pointer (R12). -/
def spIdx : RegIdx := 7

/-- `x[i]`. -/
def State.reg (s : State) (i : RegIdx) : Byte := s.regs[i.val]

/-- `x[i] <- v`; no register is hard-wired (R13). -/
def State.setReg (s : State) (i : RegIdx) (v : Byte) : State := { s with regs := s.regs.set i.val v i.isLt }

/-- `sp`, another name for `x[7]` (R12). -/
def State.sp (s : State) : Byte := s.reg spIdx

/-- `MemWrite` on the state's memory. -/
def State.store (s : State) (addr v : Byte) : State := { s with mem := s.mem.write addr v }

/-! ### Fetch and the program counter -/

/-- The bytes of the longest instruction, from `pc` upward and round the top of memory (R16, R18; decision D6,
DESIGN CHOICE, log 7, unsafe). A read has no effect (20_memory.md R43), so reading past a shorter instruction is
not observable (R44). -/
def State.fetchBytes (s : State) : List Byte := [s.mem.read s.pc, s.mem.read (s.pc + 1), s.mem.read (s.pc + 2)]

/-- Fetch and decode (30_encoding.md R71, steps 1 to 3). -/
def State.fetch (s : State) : Except DecodeError (Instr × List Byte) := decode s.cfg s.fetchBytes

/-- The default advance `pc <- (pc + len) mod 256`, `len = ir[7:6] + 1` (R72), from the opcode byte of the
instruction, not from memory, which the handler may have overwritten. -/
def State.defaultAdvance (s : State) (ir : Byte) : State := { s with pc := s.pc + BitVec.ofNat 8 (lengthOfOpcode ir) }

/-- `pc <- target` (10_state.md R17): the explicit load of a control transfer. -/
def State.jump (s : State) (target : Byte) : State := { s with pc := target }

/-! ### Output -/

/-- `Emit(v)` (00_scope.md R7, 10_state.md R28). The core emits the 8-bit value; its decimal text is the console's
(decision D14; DESIGN CHOICE, log 13, safe). -/
def State.emit (s : State) (v : Byte) : State := { s with out := s.out ++ [v] }

/-! ### Taking a fault -/

/-- The numeric codes of the causes (60_exceptions.md R120; decision D22). DESIGN CHOICE (log 19, safe): the numbers
carry no meaning in the machine. -/
def FaultCause.code : FaultCause → Nat
  | .unknownInstruction => 1
  | .invalidRegisterIndex => 2
  | .stackOverflow => 3
  | .stackUnderflow => 4

/-- `raise F(pc, ir, detail)` (60_exceptions.md R126): the status becomes FAULTED, the record is set, and nothing
else changes (R127; decision D9, DESIGN CHOICE, log 9, unsafe). Control goes nowhere: there is no handler. There is no return from a
fault either (R129): FAULTED is terminal. -/
def State.raise (s : State) (cause : FaultCause) (ir : Byte) (detail : Option Byte) : State :=
  { s with status := .faulted, fault := some { cause := cause, address := s.pc, opcode := ir, detail := detail } }

/-- The dispatch found no instruction: UnknownInstruction (60_exceptions.md R121). -/
def State.raiseUnknown (s : State) : State := s.raise .unknownInstruction (s.mem.read s.pc) none

/-! ### The stack (spec/42_stack.md) -/

/-- `x[7] <- (x[7] - 1) mod 256`. -/
def State.decSp (s : State) : State := s.setReg spIdx (s.sp - 1)

/-- `x[7] <- (x[7] + 1) mod 256`. -/
def State.incSp (s : State) : State := s.setReg spIdx (s.sp + 1)

/-- Decrement first, then write at the new SP (R100, R101). -/
def State.pushByte (s : State) (v : Byte) : State := s.decSp.store s.decSp.sp v

/-- The byte a pop reads: at SP, before the increment (R100, R102). -/
def State.topOfStack (s : State) : Byte := s.mem.read s.sp

/-- With the guard on, a decrement of SP from 0x00 raises StackOverflow (R105). -/
def State.pushOverflows (s : State) : Bool := s.cfg.stackGuard && s.sp == 0x00#8

/-- With the guard on, an increment of SP from 0xFF raises StackUnderflow (R105). -/
def State.popUnderflows (s : State) : Bool := s.cfg.stackGuard && s.sp == 0xFF#8

/-- The guarded push: the check comes before any write (R101, R103, R105); `k` goes on after the push. -/
def withPush (ir v : Byte) (s : State) (k : State → Result) : Result :=
  if s.pushOverflows then .next (s.raise .stackOverflow ir none) else k (s.pushByte v)

/-- The guarded pop `Pop()` (R102): `k` goes on with the popped byte and the state after the increment. -/
def withPop (ir : Byte) (s : State) (k : Byte → State → Result) : Result :=
  if s.popUnderflows then .next (s.raise .stackUnderflow ir none) else k s.topOfStack s.incSp

/-! ### What the host does before a run (spec/70_reset_and_hazards.md) -/

/-- The host's reset of a machine in any state (R140): every piece of state takes its value of 10_state.md R30 and
nothing survives, but the parameters, which are no state of the spec's (log 1). It is the only way out of HALTED and
FAULTED (60_exceptions.md R129). -/
def State.hostReset (s : State) : State := State.resetWith s.cfg

/-- The load (R142): the program image goes into memory from address 0 and nothing else changes; an image of more
than 256 bytes is refused by the loader and never reaches the core (decision D15; DESIGN CHOICE, log 14, safe). -/
def State.load (s : State) (image : List Byte) : Option State :=
  if image.length ≤ Config.memSize then some { s with mem := s.mem.writeBytes Config.loadBase image } else none

/-- The launch state of a program image (R143). -/
def State.launch (cfg : Config) (image : List Byte) : Option State := (State.resetWith cfg).load image

end Sys2Proof.Machine
end

