-- ==== Sys2Proof/Machine/Operands.lean ====
section
/-! DEFINITION. Operand decode (spec/30_encoding.md R63, R64): a register operand is validated before the
instruction writes anything, `op1` before `op2` (60_exceptions.md R127, R128). The immediate of LDI is the operand
byte itself and needs no operation. -/

namespace Sys2Proof.Machine

/-- `RegIdx(b)` (R63): the register a byte names, if it is one of 0 to 7; the byte is never masked. -/
def regIdx (b : Byte) : Option RegIdx := if h : b.toNat < 8 then some ⟨b.toNat, h⟩ else none

/-- Format F1R, and the register operand of F2RI: a byte above 7 raises InvalidRegisterIndex with the byte as
detail (60_exceptions.md R122; decision D8, DEDUCED, log 8, safe). -/
def withReg (ir op : Byte) (s : State) (k : RegIdx → Result) : Result :=
  match regIdx op with
  | some r => k r
  | none => .next (s.raise .invalidRegisterIndex ir (some op))

/-- Format F2RR: `op1` is checked first (R128; decision D20, log 8). -/
def withRegs (ir op1 op2 : Byte) (s : State) (k : RegIdx → RegIdx → Result) : Result :=
  withReg ir op1 s fun ra => withReg ir op2 s fun rb => k ra rb

end Sys2Proof.Machine
end

