-- ==== Sys2Proof/Machine/Flags.lean ====
section
/-! DEFINITION. The flag computation of CMP (spec/41_alu.md R93), the legal values of the flags and the host's view
of them as a byte (spec/10_state.md R22, R23). -/

namespace Sys2Proof.Machine

/-- CMP's flags: all three cleared, then exactly one set, by the unsigned comparison (R93). -/
def compareFlags (a b : Byte) : Flags :=
  if a < b then { L := true, G := false, E := false }
  else if b < a then { L := false, G := true, E := false }
  else { L := false, G := false, E := true }

/-- Exactly one of the three flags is set, as after every comparison (R22). -/
def Flags.oneSet (f : Flags) : Bool :=
  f == { L := true, G := false, E := false } || f == { L := false, G := true, E := false }
    || f == { L := false, G := false, E := true }

/-- The values `(L, G, E)` that R22 lists as reachable: none set, or exactly one. -/
def Flags.reachable (f : Flags) : Bool := f == { L := false, G := false, E := false } || f.oneSet

/-- The host's view of the flags as one byte, `FL = 00000LGE` (R23).
PRESUMED (log 15, safe): the layout is that of the published LS8; no rule of the machine depends on it. -/
def Flags.packed (f : Flags) : Byte :=
  (if f.L then 0b100#8 else 0#8) ||| (if f.G then 0b010#8 else 0#8) ||| (if f.E then 0b001#8 else 0#8)

end Sys2Proof.Machine
end

