-- ==== Sys2Proof/Machine/Alu.lean ====
section
/-! DEFINITION. The ALU block and its four instructions, MUL, ADD, CMP, AND (spec/41_alu.md). -/

namespace Sys2Proof.Machine

/-- The operation select: a closed type of four values, so UnsupportedOperation cannot arise
(R97; decision D18, DEDUCED, log 17, safe). -/
inductive AluOp where
  | add | mul | and | cmp
  deriving DecidableEq, Repr

/-- What the stateless ALU answers: a value for `x[ra]`, or new flags (R90). -/
inductive AluOut where
  | value (v : Byte)
  | flags (f : Flags)
  deriving DecidableEq, Repr

/-- `ALU(op, a, b)` (R90, R95): unsigned, modulo 256. -/
def alu : AluOp → Byte → Byte → AluOut
  | .add, a, b => .value (a + b)
  | .mul, a, b => .value (a * b)
  | .and, a, b => .value (a &&& b)
  | .cmp, a, b => .flags (compareFlags a b)

/-- `apply(operation, operand_register_a, operand_register_b)` (R90): both operands are read before the one write
(R96), which goes to `x[ra]` for arithmetic and to the flags for a comparison. -/
def State.aluApply (s : State) (op : AluOp) (ra rb : RegIdx) : State :=
  match alu op (s.reg ra) (s.reg rb) with
  | .value v => s.setReg ra v
  | .flags f => { s with flags := f }

/-- The common shape of the four ALU instructions: validate, apply, default advance. -/
def aluInstr (ir : Byte) (op : AluOp) (regA regB : Byte) (s : State) : Result :=
  withRegs ir regA regB s fun ra rb => .next ((s.aluApply op ra rb).defaultAdvance ir)

/-- MUL regA, regB (R91). -/
def execMul (regA regB : Byte) (s : State) : Result := aluInstr (opcode s.cfg .mul) .mul regA regB s

/-- ADD regA, regB (R92). -/
def execAdd (regA regB : Byte) (s : State) : Result := aluInstr (opcode s.cfg .add) .add regA regB s

/-- CMP regA, regB (R93). -/
def execCmp (regA regB : Byte) (s : State) : Result := aluInstr (opcode s.cfg .cmp) .cmp regA regB s

/-- AND regA, regB (R94). -/
def execAnd (regA regB : Byte) (s : State) : Result := aluInstr (opcode s.cfg .and) .and regA regB s

end Sys2Proof.Machine
end

