-- ==== Sys2Proof/Machine/Basic.lean ====
section
/-! DEFINITION. HLT, LDI, PRN (spec/40_basic.md). -/

namespace Sys2Proof.Machine

/-- HLT (R80): the run stops normally.
DEDUCED (log 10, unsafe): the default advance applies to HLT too (decision D10). -/
def execHlt (s : State) : Result :=
  .next ({ s with status := .halted }.defaultAdvance (opcode s.cfg .hlt))

/-- LDI reg, imm8 (R81): the immediate is used as fetched (30_encoding.md R64). -/
def execLdi (reg imm : Byte) (s : State) : Result :=
  withReg (opcode s.cfg .ldi) reg s fun d => .next ((s.setReg d imm).defaultAdvance (opcode s.cfg .ldi))

/-- PRN reg (R82): emission cannot fail. -/
def execPrn (reg : Byte) (s : State) : Result :=
  withReg (opcode s.cfg .prn) reg s fun r => .next ((s.emit (s.reg r)).defaultAdvance (opcode s.cfg .prn))

end Sys2Proof.Machine
end

