-- ==== Sys2Proof/Machine/Control.lean ====
section
/-! DEFINITION. CALL, RET, JMP, JNE, JEQ (spec/43_control_flow.md). The register operand is validated whether or
not a conditional jump is taken (R110). -/

namespace Sys2Proof.Machine

/-- CALL reg (R111). The return address is `(pc + 2) mod 256`; the target is read after the push, so CALL R7 goes to
the decremented SP (decision D12; DEDUCED, log 12, unsafe). -/
def execCall (reg : Byte) (s : State) : Result :=
  withReg (opcode s.cfg .call) reg s fun r =>
    withPush (opcode s.cfg .call) (s.pc + 2) s fun t => .next (t.jump (t.reg r))

/-- RET (R112). -/
def execRet (s : State) : Result :=
  withPop (opcode s.cfg .ret) s fun v t => .next (t.jump v)

/-- JMP reg (R113). -/
def execJmp (reg : Byte) (s : State) : Result :=
  withReg (opcode s.cfg .jmp) reg s fun r => .next (s.jump (s.reg r))

/-- JNE and JEQ: to the register's value if `taken`, else the default advance (R114, R115). -/
def State.branch (s : State) (ir : Byte) (taken : Bool) (r : RegIdx) : State :=
  if taken then s.jump (s.reg r) else s.defaultAdvance ir

/-- JNE reg (R114): taken when the Equal flag is clear. -/
def execJne (reg : Byte) (s : State) : Result :=
  withReg (opcode s.cfg .jne) reg s fun r => .next (s.branch (opcode s.cfg .jne) (!s.flags.E) r)

/-- JEQ reg (R115): taken when the Equal flag is set. -/
def execJeq (reg : Byte) (s : State) : Result :=
  withReg (opcode s.cfg .jeq) reg s fun r => .next (s.branch (opcode s.cfg .jeq) s.flags.E r)

end Sys2Proof.Machine
end

