-- ==== Sys2Proof/Machine/Stack.lean ====
section
/-! DEFINITION. PUSH and POP (spec/42_stack.md). -/

namespace Sys2Proof.Machine

/-- PUSH reg (R103). The register is read after the decrement, so PUSH R7 stores the decremented SP
(decision D12; DEDUCED, log 12, unsafe). -/
def execPush (reg : Byte) (s : State) : Result :=
  withReg (opcode s.cfg .push) reg s fun r =>
    withPush (opcode s.cfg .push) (s.decSp.reg r) s fun t => .next (t.defaultAdvance (opcode s.cfg .push))

/-- POP's register write, before the increment (R104): the value read at the old SP. -/
def State.popInto (s : State) (d : RegIdx) : State := s.setReg d s.topOfStack

/-- POP reg (R104). The increment applies to the value `x[7]` has after the register write, which for POP R7 is the
popped value (decision D12; DEDUCED, log 12, unsafe); the guard tests that same value, before any write. -/
def execPop (reg : Byte) (s : State) : Result :=
  withReg (opcode s.cfg .pop) reg s fun d =>
    if (s.popInto d).popUnderflows then .next (s.raise .stackUnderflow (opcode s.cfg .pop) none)
    else .next ((s.popInto d).incSp.defaultAdvance (opcode s.cfg .pop))

end Sys2Proof.Machine
end

