-- ==== Sys2Proof/Machine/Step.lean ====
section
/-! DEFINITION. The step function (spec/30_encoding.md R71) and where the host places an instruction word. -/

namespace Sys2Proof.Machine

/-- One step (R71): it requires `status = RUNNING`; it fetches and decodes at `pc`; an unknown opcode raises
UnknownInstruction; otherwise the instruction's meaning, which ends with the default advance or its own write of
`pc`, is run. -/
def step (s : State) : Host.Outcome State Fault Refusal :=
  match s.status with
  | .running =>
    match s.fetch with
    | .ok (i, _) => exec i s
    | .error _ => .next s.raiseUnknown
  | .halted => .fault .noStepHalted
  | .faulted => .fault .noStepFaulted

/-- The state with a word's three bytes stored where the next step fetches, from `pc` upward. Nothing else changes;
in particular a machine in a terminal state stays there (DESIGN CHOICE, log 22, safe). -/
def State.withFetchWord (s : State) (nbits w : Nat) : State :=
  { s with mem := s.mem.writeBytes s.pc (bytesOfWord nbits w) }

end Sys2Proof.Machine
end

