-- ==== Sys2Proof/Safety.lean ====
section
/-! DEFINITION. The invariant of the machine, the states a run can reach, and what makes a step
safe. -/

namespace Sys2Proof.Machine

/-- The invariant every step keeps: memory in canonical form; the fault record valid exactly when the status is
FAULTED (10_state.md R25); the flags at a value R22 lists; the parameters a legal choice (30_encoding.md R66). -/
abbrev State.Inv (s : State) : Prop :=
  s.mem.wf = true ∧ (s.status = .faulted ↔ s.fault.isSome = true) ∧ s.flags.reachable = true ∧ s.cfg.legal = true

/-- `n` steps of a run (70_reset_and_hazards.md R144), stopping where no step exists. -/
def run : Nat → State → Result
  | 0, s => .next s
  | n + 1, s =>
    match Sys2Proof.Machine.step s with
    | .next t => run n t
    | .fault r => .fault r
    | .refused r => .refused r

/-- The states a run with the given parameters reaches: the launch state of an image (70_reset_and_hazards.md R143)
and what steps lead to from there (R144). -/
inductive Reachable (cfg : Config) : State → Prop where
  | launch (image : List Byte) (s : State) (h : State.launch cfg image = some s) : Reachable cfg s
  | step (s t : State) (hs : Reachable cfg s) (h : step s = .next t) : Reachable cfg t

/-- The byte at `pc` is one of the fourteen opcodes (30_encoding.md R65, R67). -/
abbrev State.KnownOpcode (s : State) : Prop :=
  s.mem.read s.pc ∈
    [0x01#8, 0x11#8, 0x45#8, 0x46#8, 0x47#8, 0x50#8, 0x54#8, 0x55#8, 0x56#8, 0x82#8, 0xA0#8, 0xA2#8, 0xA7#8] ∨
  s.mem.read s.pc = s.cfg.andOpcode

/-- Every register operand byte at `pc` names a register (30_encoding.md R62, R63): the first operand of every opcode
but HLT and RET, the second of ADD, MUL, CMP and AND. -/
abbrev State.LegalRegBytes (s : State) : Prop :=
  (s.mem.read s.pc ∉ [0x01#8, 0x11#8] → (s.mem.read (s.pc + 1)).toNat < 8) ∧
  (s.mem.read s.pc ∈ [0xA0#8, 0xA2#8, 0xA7#8, s.cfg.andOpcode] → (s.mem.read (s.pc + 2)).toNat < 8)

/-- The stack guard does not stop the instruction at `pc` (42_stack.md R105): where it is on, PUSH and CALL have SP
above 0x00, RET has SP below 0xFF, and POP increments a value below 0xFF, which is the byte on top of the stack for
POP R7 (R104) and SP for the others. -/
abbrev State.GuardAllows (s : State) : Prop :=
  s.cfg.stackGuard = true →
    (s.mem.read s.pc ∈ [0x45#8, 0x50#8] → s.sp ≠ 0x00#8) ∧
    (s.mem.read s.pc = 0x11#8 → s.sp ≠ 0xFF#8) ∧
    (s.mem.read s.pc = 0x46#8 → (if s.mem.read (s.pc + 1) = 0x07#8 then s.mem.read s.sp else s.sp) ≠ 0xFF#8)

/-- What a program must see to before each of its steps so that none of the faults of 60_exceptions.md R120 is raised:
a safe run is one each of whose RUNNING states meets it. -/
abbrev State.SafeStep (s : State) : Prop := s.KnownOpcode ∧ s.LegalRegBytes ∧ s.GuardAllows

end Sys2Proof.Machine
end

