-- ==== Sys2Proof/Certificates/Slice0/Obligations.lean ====
section
/-! DEFINITION. The statements for the provers, in the order of spec/. A register operand is written as a byte
`a` together with the register `r` it names (`a.toNat = r.val`, spec/30_encoding.md R63). Statements hold for every
state, so for both values of STACK_GUARD and every AND_OPCODE; where one needs a legal choice of the parameters, or
memory in canonical form, it says so. -/

open Sys2Proof Sys2Proof.Machine

/-! ### Encoding and decoding -/

/-- R62, R65, R66: decoding the bytes of any instruction, followed by anything, gives it back, with every operand at
every value of its byte, for every legal choice of AND_OPCODE. -/
def Obligations.DecodeOfEncode : Prop :=
  ∀ (c : Config) (i : Instr) (rest : List Byte), c.legal = true → decode c (encode c i ++ rest) = .ok (i, rest)

/-- R61, R65: bytes that decode to an instruction are that instruction's encoding; no two byte sequences share one. -/
def Obligations.EncodeOfDecode : Prop :=
  ∀ (c : Config) (bytes : List Byte) (i : Instr) (rest : List Byte),
    decode c bytes = .ok (i, rest) → bytes = encode c i ++ rest

/-- R67, R68, R73: the decoder refuses an opcode byte by name exactly when it is none of the fourteen, whatever
follows it. -/
def Obligations.UnknownOpcodesRefused : Prop :=
  ∀ (c : Config) (ir : Byte) (bytes : List Byte),
    decode c (ir :: bytes) = .error (.unknownInstruction ir) ↔
      ir ∉ [0x01#8, 0x11#8, 0x45#8, 0x46#8, 0x47#8, 0x50#8, 0x54#8, 0x55#8, 0x56#8, 0x82#8, 0xA0#8, 0xA2#8, 0xA7#8] ∧
        ir ≠ c.andOpcode

/-- Words written out from R65's bits, with this hardware's parameters; the byte 0xA0 is ADD and 0xA8 AND (R66, whose
value of AND_OPCODE is the spec's decision D1, log 2). -/
def Obligations.DecodesTableWords : Prop :=
  decodeTableWord 8 0b00000001 = some .hlt ∧
  decodeTableWord 24 0b11111111_00000011_10000010 = some (.ldi 3 0xFF) ∧
  decodeTableWord 24 0b00000001_00000111_10100000 = some (.add 7 1) ∧
  decodeTableWord 24 0b00000001_00000111_10101000 = some (.and 7 1) ∧
  decodeTableWord 16 0b00000101_01000101 = some (.push 5) ∧
  decodeTableWord 16 0b00000010_01010110 = some (.jne 2) ∧
  decodeTableWord 8 0b00010001 = some .ret ∧
  decodeTableWord 8 0b00000000 = none ∧
  decodeTableWord 24 0b00000000_00000000_10100001 = none

/-- R60: the operand count is the top two bits of the opcode byte, and the length one more; it is 1, 2 or 3, the
decoder uses up exactly that many bytes, and the encoder writes that many. -/
def Obligations.LengthFromTopTwoBits : Prop :=
  ∀ c : Config, c.legal = true →
    (∀ (ir : Byte) (bytes : List Byte) (i : Instr) (rest : List Byte), decode c (ir :: bytes) = .ok (i, rest) →
      ir.toNat / 64 + 1 ∈ [1, 2, 3] ∧ ir.toNat / 64 ≤ bytes.length ∧ rest = bytes.drop (ir.toNat / 64)) ∧
    (∀ i : Instr, ∃ (ir : Byte) (ops : List Byte), encode c i = ir :: ops ∧ ops.length = ir.toNat / 64 ∧
      (encode c i).length = ir.toNat / 64 + 1)

/-! ### The step -/

/-- R71: a step of a running machine whose bytes at `pc` decode to an instruction runs that instruction. (The default
advance of R72 is part of `exec` in this model, log 21.) -/
def Obligations.StepRunsDecodedInstruction : Prop :=
  ∀ (s : State) (i : Instr) (rest : List Byte), s.status = .running →
    decode s.cfg [s.mem.read s.pc, s.mem.read (s.pc + 1), s.mem.read (s.pc + 2)] = .ok (i, rest) →
      Sys2Proof.Machine.step s = Sys2Proof.Machine.exec i s

/-- R16, R71: where memory holds the encoding of an instruction from `pc` upward, round the top of memory if need be
(decision D6, log 7), a step of a running machine runs it. -/
def Obligations.StepRunsInstructionInMemory : Prop :=
  ∀ (s : State) (i : Instr), s.status = .running → s.cfg.legal = true →
    (∀ (k : Nat) (b : Byte), (encode s.cfg i)[k]? = some b → s.mem.read (s.pc + BitVec.ofNat 8 k) = b) →
      Sys2Proof.Machine.step s = Sys2Proof.Machine.exec i s

/-- R121, R126: a running machine at a byte that is none of the fourteen opcodes goes to FAULTED with the record
(UnknownInstruction, pc, ir, none) and changes nothing else (decision D9, log 9). -/
def Obligations.StepFaultsOnUnknownOpcode : Prop :=
  ∀ s : State, s.status = .running →
    s.mem.read s.pc ∉
      [0x01#8, 0x11#8, 0x45#8, 0x46#8, 0x47#8, 0x50#8, 0x54#8, 0x55#8, 0x56#8, 0x82#8, 0xA0#8, 0xA2#8, 0xA7#8] →
    s.mem.read s.pc ≠ s.cfg.andOpcode →
      Sys2Proof.Machine.step s = .next { s with
        status := .faulted
        fault := some { cause := .unknownInstruction, address := s.pc, opcode := s.mem.read s.pc, detail := none } }

/-- R24, R129: HALTED and FAULTED are terminal; no run of one step or more goes on from them. (That the model answers
its outcome `fault` there is its own form, log 11.) -/
def Obligations.TerminalStatesAreFinal : Prop :=
  ∀ s : State,
    (s.status = .halted → Sys2Proof.Machine.step s = .fault .noStepHalted) ∧
    (s.status = .faulted → Sys2Proof.Machine.step s = .fault .noStepFaulted) ∧
    (s.status ≠ .running → ∀ (k : Nat) (t : State), Sys2Proof.Machine.run (k + 1) s ≠ .next t)

/-- R144: a running machine always takes its step; it is never refused and never stuck. -/
def Obligations.RunningMachineAlwaysSteps : Prop :=
  ∀ s : State, s.status = .running → ∃ t, Sys2Proof.Machine.step s = .next t

/-! ### HLT, LDI, PRN -/

/-- R80: HLT ends the run normally and changes nothing else but `pc`. That `pc` advances by one is the spec's
decision D10 (log 10). -/
def Obligations.HltHalts : Prop :=
  ∀ s : State, Sys2Proof.Machine.exec .hlt s = .next { s with status := .halted, pc := s.pc + 1 }

/-- R81: LDI puts the immediate, as it stands, into the register. -/
def Obligations.LdiLoadsImmediate : Prop :=
  ∀ (s : State) (a imm : Byte) (d : RegIdx), a.toNat = d.val →
    Sys2Proof.Machine.exec (.ldi a imm) s = .next { s with regs := s.regs.set d.val imm d.isLt, pc := s.pc + 3 }

/-- R82: PRN appends the register's value to the output stream. -/
def Obligations.PrnEmitsRegister : Prop :=
  ∀ (s : State) (a : Byte) (r : RegIdx), a.toNat = r.val →
    Sys2Proof.Machine.exec (.prn a) s = .next { s with out := s.out ++ [s.regs[r.val]], pc := s.pc + 2 }

/-- S1 (R81, R82): where memory holds LDI r, v and PRN r from `pc` upward, two steps append `v` to the output. -/
def Obligations.LdiThenPrnEmitsImmediate : Prop :=
  ∀ (s : State) (a v : Byte), s.status = .running → a.toNat < 8 →
    s.mem.read s.pc = 0x82#8 → s.mem.read (s.pc + 1) = a → s.mem.read (s.pc + 2) = v →
    s.mem.read (s.pc + 3) = 0x47#8 → s.mem.read (s.pc + 4) = a →
      ∃ t : State, Sys2Proof.Machine.run 2 s = .next t ∧ t.out = s.out ++ [v] ∧ t.status = .running ∧ t.pc = s.pc + 5

/-! ### The ALU -/

/-- R90: the ALU as an operation on the state: ADD, MUL and AND write their result to `x[ra]` and no flag, CMP writes
all three flags and no register, and nothing else is written; the operands are the values before the write; and what
it does depends on the two operand values alone (it keeps nothing between operations). That there is no fifth
operation (R97) is the spec's decision D18 (log 17, DEDUCED). -/
def Obligations.AluContract : Prop :=
  (∀ (s : State) (ra rb : RegIdx),
    s.aluApply .add ra rb = { s with
      regs := s.regs.set ra.val (BitVec.ofNat 8 ((s.regs[ra.val].toNat + s.regs[rb.val].toNat) % 256)) ra.isLt } ∧
    s.aluApply .mul ra rb = { s with
      regs := s.regs.set ra.val (BitVec.ofNat 8 ((s.regs[ra.val].toNat * s.regs[rb.val].toNat) % 256)) ra.isLt } ∧
    s.aluApply .and ra rb = { s with
      regs := s.regs.set ra.val (s.regs[ra.val] &&& s.regs[rb.val]) ra.isLt } ∧
    s.aluApply .cmp ra rb = { s with
      flags := { L := decide (s.regs[ra.val].toNat < s.regs[rb.val].toNat)
                 G := decide (s.regs[ra.val].toNat > s.regs[rb.val].toNat)
                 E := decide (s.regs[ra.val].toNat = s.regs[rb.val].toNat) } }) ∧
  (∀ op : AluOp, op ∈ [AluOp.add, AluOp.mul, AluOp.and, AluOp.cmp])

/-- R91, R92: MUL and ADD write the product and the sum modulo 256 to the first register, and only the first. -/
def Obligations.MulAddWriteResult : Prop :=
  ∀ (s : State) (a b : Byte) (ra rb : RegIdx), a.toNat = ra.val → b.toNat = rb.val →
    Sys2Proof.Machine.exec (.mul a b) s = .next { s with
      regs := s.regs.set ra.val (BitVec.ofNat 8 ((s.regs[ra.val].toNat * s.regs[rb.val].toNat) % 256)) ra.isLt
      pc := s.pc + 3 } ∧
    Sys2Proof.Machine.exec (.add a b) s = .next { s with
      regs := s.regs.set ra.val (BitVec.ofNat 8 ((s.regs[ra.val].toNat + s.regs[rb.val].toNat) % 256)) ra.isLt
      pc := s.pc + 3 }

/-- R93: CMP sets exactly one flag, by the unsigned comparison, clears the other two, and writes no register. -/
def Obligations.CmpSetsOneFlag : Prop :=
  ∀ (s : State) (a b : Byte) (ra rb : RegIdx), a.toNat = ra.val → b.toNat = rb.val →
    ∃ f : Flags, Sys2Proof.Machine.exec (.cmp a b) s = .next { s with flags := f, pc := s.pc + 3 } ∧
      (s.regs[ra.val].toNat < s.regs[rb.val].toNat → f = { L := true, G := false, E := false }) ∧
      (s.regs[ra.val].toNat > s.regs[rb.val].toNat → f = { L := false, G := true, E := false }) ∧
      (s.regs[ra.val].toNat = s.regs[rb.val].toNat → f = { L := false, G := false, E := true })

/-- R94: AND writes the bitwise and to the first register; its length is 3 for every legal AND_OPCODE (R66). -/
def Obligations.AndWritesResult : Prop :=
  ∀ (s : State) (a b : Byte) (ra rb : RegIdx), s.cfg.legal = true → a.toNat = ra.val → b.toNat = rb.val →
    ∃ v : Byte,
      (∀ k : Nat, k < 8 → v.getLsbD k = (s.regs[ra.val].getLsbD k && s.regs[rb.val].getLsbD k)) ∧
      Sys2Proof.Machine.exec (.and a b) s = .next { s with regs := s.regs.set ra.val v ra.isLt, pc := s.pc + 3 }

/-- R95: the sum and the product are right modulo 256 for operands read as unsigned values, and for the same operands
read as signed values; the comparison is unsigned only; ADD and MUL with the operands exchanged compute the same
number and write the other register. -/
def Obligations.ArithmeticWrapsModulo256 : Prop :=
  (∀ a b : Byte, ∃ sum prod : Byte,
    alu .add a b = .value sum ∧ alu .mul a b = .value prod ∧
    sum.toNat = (a.toNat + b.toNat) % 256 ∧ prod.toNat = (a.toNat * b.toNat) % 256 ∧
    (sum.toInt - (a.toInt + b.toInt)) % 256 = 0 ∧ (prod.toInt - a.toInt * b.toInt) % 256 = 0 ∧
    alu .cmp a b =
      .flags { L := decide (a.toNat < b.toNat), G := decide (b.toNat < a.toNat), E := decide (a = b) }) ∧
  (∀ (s : State) (ra rb : RegIdx) (op : AluOp), op = .add ∨ op = .mul → ra ≠ rb →
    (s.aluApply op ra rb).reg ra = (s.aluApply op rb ra).reg rb ∧
    (s.aluApply op ra rb).reg rb = s.reg rb ∧ (s.aluApply op rb ra).reg ra = s.reg ra)

/-! ### The stack -/

/-- R101, R102: the guarded push and pop. The push decrements first and writes at the new SP; the pop reads at the
old SP, then increments, and leaves memory alone; with the guard on, the move past the end of memory is raised before
anything is written; with it off, SP wraps. The guard (R105) is the spec's decision D7 (log 3, the model's choice);
the record (R126) and that a fault changes nothing else (R127) are its decision D9 (log 9, the model's choice). -/
def Obligations.StackPrimitives : Prop :=
  ∀ (s : State) (ir v : Byte),
    (∀ k : State → Result,
      withPush ir v s k =
        if s.cfg.stackGuard = true ∧ s.regs[7].toNat = 0 then .next { s with
          status := .faulted
          fault := some { cause := .stackOverflow, address := s.pc, opcode := ir, detail := none } }
        else k { s with
          regs := s.regs.set 7 (BitVec.ofNat 8 ((s.regs[7].toNat + 255) % 256))
          mem := s.mem.write (BitVec.ofNat 8 ((s.regs[7].toNat + 255) % 256)) v }) ∧
    (∀ k : Byte → State → Result,
      withPop ir s k =
        if s.cfg.stackGuard = true ∧ s.regs[7].toNat = 255 then .next { s with
          status := .faulted
          fault := some { cause := .stackUnderflow, address := s.pc, opcode := ir, detail := none } }
        else k (s.mem.read s.regs[7]) { s with
          regs := s.regs.set 7 (BitVec.ofNat 8 ((s.regs[7].toNat + 1) % 256)) })

/-- R103: PUSH decrements SP and stores the register at the new SP; PUSH R7 stores the decremented SP (the spec's
decision D12, log 12). With the guard off, or SP not 0x00. -/
def Obligations.PushStoresRegister : Prop :=
  ∀ (s : State) (a : Byte) (r : RegIdx), a.toNat = r.val → ¬(s.cfg.stackGuard = true ∧ s.regs[7] = 0x00#8) →
    Sys2Proof.Machine.exec (.push a) s = .next { s with
      regs := s.regs.set 7 (s.regs[7] - 1)
      mem := s.mem.write (s.regs[7] - 1) (if r = 7 then s.regs[7] - 1 else s.regs[r.val])
      pc := s.pc + 2 }

/-- R104: POP writes the byte at SP to the register and increments SP; for POP R7 the increment applies to the popped
byte (the spec's decision D12, log 12). With the guard off, or the incremented value not 0xFF. -/
def Obligations.PopLoadsRegister : Prop :=
  ∀ (s : State) (a : Byte) (d : RegIdx), a.toNat = d.val →
    ¬(s.cfg.stackGuard = true ∧
      ((d ≠ 7 ∧ s.regs[7] = 0xFF#8) ∨ (d = 7 ∧ s.mem.read s.regs[7] = 0xFF#8))) →
    Sys2Proof.Machine.exec (.pop a) s = .next { s with
      regs := if d = 7 then s.regs.set 7 (s.mem.read s.regs[7] + 1)
              else (s.regs.set d.val (s.mem.read s.regs[7]) d.isLt).set 7 (s.regs[7] + 1)
      pc := s.pc + 2 }

/-- S4 (R103, R104): PUSH then POP of the same register, R7 too (decision D12, log 12), runs and gives back every
register as it was. -/
def Obligations.PushThenPopRestores : Prop :=
  ∀ (s : State) (a : Byte), a.toNat < 8 → s.mem.wf = true → ¬(s.cfg.stackGuard = true ∧ s.sp = 0x00#8) →
    ∃ t u, Sys2Proof.Machine.exec (.push a) s = .next t ∧ Sys2Proof.Machine.exec (.pop a) t = .next u ∧
      u.regs = s.regs ∧ u.pc = s.pc + 4

/-! ### Control transfer -/

/-- R111: CALL pushes the address after itself and goes to the register's value; for CALL R7 that is the decremented
SP (the spec's decision D12, log 12). With the guard off, or SP not 0x00. -/
def Obligations.CallPushesReturnAddress : Prop :=
  ∀ (s : State) (a : Byte) (r : RegIdx), a.toNat = r.val → ¬(s.cfg.stackGuard = true ∧ s.regs[7] = 0x00#8) →
    Sys2Proof.Machine.exec (.call a) s = .next { s with
      regs := s.regs.set 7 (s.regs[7] - 1)
      mem := s.mem.write (s.regs[7] - 1) (s.pc + 2)
      pc := if r = 7 then s.regs[7] - 1 else s.regs[r.val] }

/-- R112: RET pops into `pc`. With the guard off, or SP not 0xFF. -/
def Obligations.RetPopsPc : Prop :=
  ∀ s : State, ¬(s.cfg.stackGuard = true ∧ s.regs[7] = 0xFF#8) →
    Sys2Proof.Machine.exec .ret s = .next { s with
      regs := s.regs.set 7 (s.regs[7] + 1)
      pc := s.mem.read s.regs[7] }

/-- R113: JMP goes to the register's value, and R114, R115: JNE and JEQ go there when E is clear, respectively set,
and otherwise to the next instruction; nothing else changes. -/
def Obligations.JumpsWritePc : Prop :=
  ∀ (s : State) (a : Byte) (r : RegIdx), a.toNat = r.val →
    Sys2Proof.Machine.exec (.jmp a) s = .next { s with pc := s.regs[r.val] } ∧
    Sys2Proof.Machine.exec (.jne a) s =
      .next { s with pc := if s.flags.E = false then s.regs[r.val] else s.pc + 2 } ∧
    Sys2Proof.Machine.exec (.jeq a) s =
      .next { s with pc := if s.flags.E = true then s.regs[r.val] else s.pc + 2 }

/-- R112 (d), S5: a RET, at any later state with the SP and the return-address cell as the CALL left them, goes to the
instruction after the CALL and gives back SP. -/
def Obligations.RetReturnsAfterCall : Prop :=
  ∀ (s t t' : State) (a : Byte), s.mem.wf = true → a.toNat < 8 → ¬(s.cfg.stackGuard = true ∧ s.sp = 0x00#8) →
    Sys2Proof.Machine.exec (.call a) s = .next t →
    t'.cfg = t.cfg → t'.sp = t.sp → t'.mem.read t'.sp = t.mem.read t.sp →
      ∃ u, Sys2Proof.Machine.exec .ret t' = .next u ∧ u.pc = s.pc + 2 ∧ u.sp = s.sp

/-- R153: a JMP to its own address is a fixed point of the step, so the run never ends and never changes. -/
def Obligations.JumpToSelfRunsForever : Prop :=
  ∀ (s : State) (a : Byte) (r : RegIdx), s.status = .running → a.toNat = r.val →
    s.mem.read s.pc = 0x54#8 → s.mem.read (s.pc + 1) = a → s.reg r = s.pc →
      ∀ k : Nat, Sys2Proof.Machine.run k s = .next s

/-- R53: a PUSH that stores 0x01 on the byte after itself makes the next step an HLT; fetch sees the store. -/
def Obligations.FetchSeesPushedOpcode : Prop :=
  ∀ (s : State) (a : Byte) (r : RegIdx), s.status = .running → s.mem.wf = true → a.toNat = r.val → r ≠ 7 →
    s.mem.read s.pc = 0x45#8 → s.mem.read (s.pc + 1) = a → s.reg r = 0x01#8 → s.sp - 1 = s.pc + 2 →
    ¬(s.cfg.stackGuard = true ∧ s.sp = 0x00#8) →
      ∃ t : State, Sys2Proof.Machine.run 2 s = .next t ∧ t.status = .halted ∧ t.out = s.out

/-- R17, R72: how every instruction leaves `pc` when it does not fault: the default advance by its length (1 for HLT,
by decision D10, log 10), or the target of the control transfer (for CALL R7 by decision D12, log 12). An instruction
that faults leaves `pc` alone (decision D9, log 9). -/
def Obligations.PcUpdate : Prop :=
  ∀ (i : Instr) (s t : State), s.status = .running → s.cfg.legal = true → Sys2Proof.Machine.exec i s = .next t →
    (t.status = .faulted ∧ t.pc = s.pc) ∨
    (t.status ≠ .faulted ∧
      match i with
      | .hlt => t.pc = s.pc + 1
      | .ldi _ _ => t.pc = s.pc + 3
      | .prn _ => t.pc = s.pc + 2
      | .mul _ _ => t.pc = s.pc + 3
      | .add _ _ => t.pc = s.pc + 3
      | .cmp _ _ => t.pc = s.pc + 3
      | .and _ _ => t.pc = s.pc + 3
      | .push _ => t.pc = s.pc + 2
      | .pop _ => t.pc = s.pc + 2
      | .call a => ∃ r : RegIdx, a.toNat = r.val ∧ t.pc = t.reg r
      | .ret => t.pc = s.mem.read s.sp
      | .jmp a => ∃ r : RegIdx, a.toNat = r.val ∧ t.pc = s.reg r
      | .jne a => ∃ r : RegIdx, a.toNat = r.val ∧ t.pc = if s.flags.E then s.pc + 2 else s.reg r
      | .jeq a => ∃ r : RegIdx, a.toNat = r.val ∧ t.pc = if s.flags.E then s.reg r else s.pc + 2)

/-! ### Frames -/

/-- The frame of the registers, all instructions: LDI, MUL, ADD and AND write their first register operand, POP its
operand and SP, PUSH, CALL and RET write SP, and no other instruction writes a register (R10, R90). -/
def Obligations.RegisterFrame : Prop :=
  ∀ (i : Instr) (s t : State) (j : RegIdx), Sys2Proof.Machine.exec i s = .next t →
    (match i with
      | .hlt => True
      | .ldi a _ => a.toNat ≠ j.val
      | .prn _ => True
      | .mul a _ => a.toNat ≠ j.val
      | .add a _ => a.toNat ≠ j.val
      | .cmp _ _ => True
      | .and a _ => a.toNat ≠ j.val
      | .push _ => j ≠ 7
      | .pop a => a.toNat ≠ j.val ∧ j ≠ 7
      | .call _ => j ≠ 7
      | .ret => j ≠ 7
      | .jmp _ => True
      | .jne _ => True
      | .jeq _ => True) →
    t.reg j = s.reg j

/-- The frame of memory, all instructions: PUSH and CALL store one byte, at the decremented SP, and every other byte
reads as before; every byte reads as before for every other instruction (20_memory.md R44). -/
def Obligations.MemoryFrame : Prop :=
  ∀ (i : Instr) (s t : State) (addr : Byte), Sys2Proof.Machine.exec i s = .next t →
    (match i with
      | .hlt => True
      | .ldi _ _ => True
      | .prn _ => True
      | .mul _ _ => True
      | .add _ _ => True
      | .cmp _ _ => True
      | .and _ _ => True
      | .push _ => addr ≠ s.decSp.sp
      | .pop _ => True
      | .call _ => addr ≠ s.decSp.sp
      | .ret => True
      | .jmp _ => True
      | .jne _ => True
      | .jeq _ => True) →
    t.mem.read addr = s.mem.read addr

/-- R21: CMP is the only instruction that writes any flag, and it writes all three, whatever they were; JEQ and JNE
read E and nothing else, and no other instruction reads a flag: with other flags, the rest of the next state is the
same. -/
def Obligations.FlagsWrittenByCmpReadByJumps : Prop :=
  (∀ (i : Instr) (s t : State), Sys2Proof.Machine.exec i s = .next t → (∀ a b, i ≠ .cmp a b) → t.flags = s.flags) ∧
  (∀ (s : State) (f : Flags) (a b : Byte), a.toNat < 8 → b.toNat < 8 →
    ∃ t, Sys2Proof.Machine.exec (.cmp a b) s = .next t ∧
      Sys2Proof.Machine.exec (.cmp a b) { s with flags := f } = .next t) ∧
  (∀ (i : Instr) (s t : State) (f : Flags), Sys2Proof.Machine.exec i s = .next t →
    ((∃ a, i = .jeq a ∨ i = .jne a) → f.E = s.flags.E) →
      ∃ u, Sys2Proof.Machine.exec i { s with flags := f } = .next u ∧ { u with flags := t.flags } = t)

/-- The frame of the output stream, all instructions (R28): only PRN appends, one value; nothing else changes it. -/
def Obligations.OutputFrame : Prop :=
  ∀ (i : Instr) (s t : State), Sys2Proof.Machine.exec i s = .next t →
    t.out = s.out ∨ ∃ (a : Byte) (r : RegIdx), i = .prn a ∧ a.toNat = r.val ∧ t.out = s.out ++ [s.reg r]

/-- The frame of the run status, the fault record and the parameters, all instructions (R10, R24): only HLT halts,
only a fault sets the record, and the parameters never change. -/
def Obligations.StatusFrame : Prop :=
  ∀ (i : Instr) (s t : State), Sys2Proof.Machine.exec i s = .next t →
    t.cfg = s.cfg ∧
    ((t.status = s.status ∧ t.fault = s.fault) ∨
      (i = .hlt ∧ t.status = .halted ∧ t.fault = s.fault) ∨
      (t.status = .faulted ∧ t.fault.isSome = true ∧ i ≠ .hlt))

/-! ### Faults -/

/-- R63, R122, R128: an instruction with a register operand byte above 7 goes to FAULTED with the record
(InvalidRegisterIndex, pc, ir, the first such byte) and changes nothing else, whatever else is wrong with it and
whether or not a jump would be taken (the spec's decisions D8, D9 and D20, logs 8 and 9). -/
def Obligations.BadRegisterOperandFaults : Prop :=
  (∀ (i : Instr) (s : State) (b : Byte), i.regOperands.find? (fun x => decide (7 < x.toNat)) = some b →
    Sys2Proof.Machine.exec i s = .next { s with
      status := .faulted
      fault := some
        { cause := .invalidRegisterIndex, address := s.pc, opcode := opcode s.cfg i.mnemonic, detail := some b } }) ∧
  (∀ i : Instr, i.wellFormed = true ↔ i.regOperands.find? (fun x => decide (7 < x.toNat)) = none)

/-- R105, R123, R124: with STACK_GUARD on, PUSH and CALL at SP 0x00 raise StackOverflow, and POP and RET that would
increment 0xFF raise StackUnderflow (for POP R7 the popped byte is the one incremented), and nothing else changes
(the record is the spec's decision D9, log 9; the parameter is decision D7, log 3; which value POP R7 increments is
decision D12, log 12). -/
def Obligations.StackGuardFaults : Prop :=
  ∀ (s : State) (a : Byte) (r : RegIdx), s.cfg.stackGuard = true → a.toNat = r.val →
    (s.sp = 0x00#8 →
      Sys2Proof.Machine.exec (.push a) s = .next { s with
        status := .faulted
        fault := some { cause := .stackOverflow, address := s.pc, opcode := 0x45#8, detail := none } } ∧
      Sys2Proof.Machine.exec (.call a) s = .next { s with
        status := .faulted
        fault := some { cause := .stackOverflow, address := s.pc, opcode := 0x50#8, detail := none } }) ∧
    ((r ≠ 7 ∧ s.sp = 0xFF#8) ∨ (r = 7 ∧ s.mem.read s.sp = 0xFF#8) →
      Sys2Proof.Machine.exec (.pop a) s = .next { s with
        status := .faulted
        fault := some { cause := .stackUnderflow, address := s.pc, opcode := 0x46#8, detail := none } }) ∧
    (s.sp = 0xFF#8 →
      Sys2Proof.Machine.exec .ret s = .next { s with
        status := .faulted
        fault := some { cause := .stackUnderflow, address := s.pc, opcode := 0x11#8, detail := none } })

/-- R120, R126, R127: whatever step ends in FAULTED, the state is as it was but for the status and the record, which
names the address and the byte fetched there; the record has a detail exactly for InvalidRegisterIndex, and the stack
causes exist only with the guard on (precision is the spec's decision D9, log 9). -/
def Obligations.FaultsArePrecise : Prop :=
  ∀ s t : State, Sys2Proof.Machine.step s = .next t → t.status = .faulted →
    ∃ (cause : FaultCause) (detail : Option Byte),
      t = { s with
        status := .faulted
        fault := some { cause := cause, address := s.pc, opcode := s.mem.read s.pc, detail := detail } } ∧
      (detail.isSome = true ↔ cause = .invalidRegisterIndex) ∧
      (cause = .stackOverflow ∨ cause = .stackUnderflow → s.cfg.stackGuard = true)

/-! ### Memory -/

/-- R41: a read returns the value of the most recent write to that address, or 0x00 if there was none since reset. -/
def Obligations.ReadReturnsMostRecentWrite : Prop :=
  ∀ (writes : List (Byte × Byte)) (addr : Byte),
    Memory.read (writes.foldl (fun m w => m.write w.1 w.2) State.reset.mem) addr =
      ((writes.reverse.find? fun w => w.1 == addr).map Prod.snd).getD 0x00#8

/-- Memories in canonical form that read alike at every address are equal data (log 18). -/
def Obligations.CanonicalMemoryIsUnique : Prop :=
  ∀ m n : Memory, m.wf = true → n.wf = true → (∀ addr : Byte, m.read addr = n.read addr) → m = n

/-! ### Reset, launch, runs -/

/-- R30, R140: the state after reset. The values of `pc`, the flags and `x[0]` to `x[6]` are the spec's decisions D2,
D3 and D4 (logs 4, 5, 6), the parameters' D1 and D7 (logs 2, 3). -/
def Obligations.ResetValues : Prop :=
  State.reset.regs.toList = [0x00#8, 0x00#8, 0x00#8, 0x00#8, 0x00#8, 0x00#8, 0x00#8, 0xF4#8] ∧
  State.reset.pc = 0x00#8 ∧
  State.reset.flags = { L := false, G := false, E := false } ∧
  (∀ addr : Byte, State.reset.mem.read addr = 0x00#8) ∧
  State.reset.status = .running ∧ State.reset.fault = none ∧ State.reset.out = [] ∧
  State.reset.cfg = { andOpcode := 0xA8#8, stackGuard := false }

/-- R142, R143: an image of up to 256 bytes, and no longer one, gives a launch state: the reset state with the image
in memory from address 0 and 0x00 above it (decision D15, log 14; the reset values as in `ResetValues`). -/
def Obligations.LaunchStateHoldsImage : Prop :=
  ∀ (c : Config) (image : List Byte),
    ((∃ s, State.launch c image = some s) ↔ image.length ≤ 256) ∧
    (∀ s, State.launch c image = some s →
      s = { State.resetWith c with mem := s.mem } ∧
      ∀ addr : Byte, s.mem.read addr = (image[addr.toNat]?).getD 0x00#8)

/-- The invariant holds after reset, for every legal choice of the parameters; this hardware's is one.
That the flags are clear then is the spec's decision D3 (log 5); the canonical form of memory is the model's (log
18). -/
def Obligations.ResetHasInvariant : Prop :=
  Config.default.legal = true ∧ ∀ c : Config, c.legal = true → (State.resetWith c).Inv

/-- Every step keeps the invariant: memory stays canonical, the record is valid exactly when FAULTED (R25), the flags
stay at a value of R22, the parameters stay legal. (The canonical form is the model's own, log 18.) -/
def Obligations.StepKeepsInvariant : Prop :=
  ∀ s t : State, s.Inv → Sys2Proof.Machine.step s = .next t → t.Inv

/-- Every state of every run of every program image, with any legal parameters, has the invariant and the parameters
it was launched with. It rests on the flags being clear after reset (the spec's decision D3, log 5), on the load that
writes memory and nothing else (decision D15, log 14), and on the model's canonical form of memory (log 18). -/
def Obligations.ReachableStatesHaveInvariant : Prop :=
  ∀ (c : Config) (s : State), c.legal = true → Reachable c s → s.Inv ∧ s.cfg = c

/-- R22: once exactly one flag is set it stays so, along any step; a step that runs CMP without a fault sets exactly
one. -/
def Obligations.OneFlagStaysSet : Prop :=
  (∀ s t : State, s.flags.oneSet = true → Sys2Proof.Machine.step s = .next t → t.flags.oneSet = true) ∧
  (∀ s t : State, s.mem.read s.pc = 0xA7#8 → Sys2Proof.Machine.step s = .next t → t.status = .running →
    t.flags.oneSet = true)

/-- R28: along any run, from any state, the output stream is only ever appended to. -/
def Obligations.OutputOnlyGrows : Prop :=
  ∀ (k : Nat) (s t : State), Sys2Proof.Machine.run k s = .next t → s.out <+: t.out

/-- R120, R128: from a running state with the invariant the step always answers, and the state it answers is FAULTED
exactly when one of the four causes of R120 is there; so it is not FAULTED exactly when the byte at `pc` is one of the
fourteen opcodes, every register operand byte is below 8, and the guard does not stop the instruction. The invariant
gives a legal AND_OPCODE (R66), so that the byte at `pc` says which operands are registers; which legal byte it is
(decision D1, log 2) does not matter here. That a register byte above 7 faults, also on a jump not taken, is the
spec's decision D8 (log 8), the guard D7 (log 3), the value POP R7 increments D12 (log 12), operand addresses that
wrap D6 (log 7). -/
def Obligations.SafeStepNeverFaults : Prop :=
  ∀ s : State, s.Inv → s.status = .running →
    ∃ t : State, Sys2Proof.Machine.step s = .next t ∧ (t.status ≠ .faulted ↔ s.SafeStep)

/-- R145: a step that leaves RUNNING either ran the byte 0x01 as HLT and is HALTED, or raised a fault and is FAULTED
with a record. -/
def Obligations.RunEndsByHltOrFault : Prop :=
  ∀ s t : State, Sys2Proof.Machine.step s = .next t → t.status ≠ .running →
    (t.status = .halted ∧ s.mem.read s.pc = 0x01#8) ∨ (t.status = .faulted ∧ t.fault.isSome = true)
end

