-- ==== Sys2Proof/Laws/Decode.lean ====
section
/-! SUPPORT. Small laws of the opcode map and the length formula (spec/30_encoding.md R60, R65, R66). -/

namespace Sys2Proof

/-- No two rows of the opcode map overlap, in opcode or in mnemonic. -/
theorem fixedRows_pairwise : fixedRows.Pairwise fun r q => r.1 ≠ q.1 ∧ r.2 ≠ q.2 := by decide

theorem default_legal : Config.default.legal = true := by decide

theorem legal_notMem {c : Config} (h : c.legal = true) : c.andOpcode ∉ fixedOpcodes := by
  simp only [Config.legal, Bool.and_eq_true, Bool.not_eq_true', List.contains_eq_mem, decide_eq_false_iff_not] at h
  exact h.1

theorem legal_operandCount {c : Config} (h : c.legal = true) : operandCount c.andOpcode = 2 := by
  simp only [Config.legal, Bool.and_eq_true, beq_iff_eq] at h
  exact h.2

/-- What the dispatch answers: a row of the map, AND by its parameter, or nothing. -/
theorem decodeOpcode_eq_some {c : Config} {ir : Byte} {m : Mnemonic} (h : decodeOpcode c ir = some m) :
    (ir, m) ∈ fixedRows ∨ (ir ∉ fixedOpcodes ∧ ir = c.andOpcode ∧ m = .and) := by
  simp only [decodeOpcode] at h
  split at h
  · rename_i row hrow
    have hb : row.1 = ir := by simpa using List.find?_some hrow
    have hm : row.2 = m := by simpa using h
    exact .inl (hb ▸ hm ▸ List.mem_of_find?_eq_some hrow)
  · rename_i hnone
    have hnot : ir ∉ fixedOpcodes := by
      intro hmem
      obtain ⟨row, hin, rfl⟩ := List.mem_map.mp hmem
      simpa using List.find?_eq_none.mp hnone row hin
    split_ifs at h with he
    exact .inr ⟨hnot, he, by simpa using h.symm⟩

/-- The dispatch answers nothing exactly off the map. -/
theorem decodeOpcode_eq_none {c : Config} {ir : Byte} :
    decodeOpcode c ir = none ↔ ir ∉ fixedOpcodes ∧ ir ≠ c.andOpcode := by
  simp only [decodeOpcode]
  constructor
  · intro h
    split at h
    · cases h
    · rename_i hnone
      refine ⟨fun hmem => ?_, fun he => by simp [he] at h⟩
      obtain ⟨row, hin, rfl⟩ := List.mem_map.mp hmem
      simpa using List.find?_eq_none.mp hnone row hin
  · rintro ⟨hnot, hne⟩
    have hnone : (fixedRows.find? fun row => row.1 == ir) = none := by
      refine List.find?_eq_none.mpr fun row hin he => hnot ?_
      have he' : row.1 = ir := by simpa using he
      exact he' ▸ List.mem_map_of_mem hin
    simp [hnone, hne]

@[simp] theorem lengthOfOpcode_hlt (c : Config) : lengthOfOpcode (opcode c .hlt) = 1 := by
  simp [lengthOfOpcode, operandCount, opcode]
@[simp] theorem lengthOfOpcode_ldi (c : Config) : lengthOfOpcode (opcode c .ldi) = 3 := by
  simp [lengthOfOpcode, operandCount, opcode]
@[simp] theorem lengthOfOpcode_prn (c : Config) : lengthOfOpcode (opcode c .prn) = 2 := by
  simp [lengthOfOpcode, operandCount, opcode]
@[simp] theorem lengthOfOpcode_mul (c : Config) : lengthOfOpcode (opcode c .mul) = 3 := by
  simp [lengthOfOpcode, operandCount, opcode]
@[simp] theorem lengthOfOpcode_add (c : Config) : lengthOfOpcode (opcode c .add) = 3 := by
  simp [lengthOfOpcode, operandCount, opcode]
@[simp] theorem lengthOfOpcode_cmp (c : Config) : lengthOfOpcode (opcode c .cmp) = 3 := by
  simp [lengthOfOpcode, operandCount, opcode]
@[simp] theorem lengthOfOpcode_push (c : Config) : lengthOfOpcode (opcode c .push) = 2 := by
  simp [lengthOfOpcode, operandCount, opcode]
@[simp] theorem lengthOfOpcode_pop (c : Config) : lengthOfOpcode (opcode c .pop) = 2 := by
  simp [lengthOfOpcode, operandCount, opcode]
@[simp] theorem lengthOfOpcode_call (c : Config) : lengthOfOpcode (opcode c .call) = 2 := by
  simp [lengthOfOpcode, operandCount, opcode]
@[simp] theorem lengthOfOpcode_ret (c : Config) : lengthOfOpcode (opcode c .ret) = 1 := by
  simp [lengthOfOpcode, operandCount, opcode]
@[simp] theorem lengthOfOpcode_jmp (c : Config) : lengthOfOpcode (opcode c .jmp) = 2 := by
  simp [lengthOfOpcode, operandCount, opcode]
@[simp] theorem lengthOfOpcode_jne (c : Config) : lengthOfOpcode (opcode c .jne) = 2 := by
  simp [lengthOfOpcode, operandCount, opcode]
@[simp] theorem lengthOfOpcode_jeq (c : Config) : lengthOfOpcode (opcode c .jeq) = 2 := by
  simp [lengthOfOpcode, operandCount, opcode]

theorem lengthOfOpcode_and {c : Config} (h : c.legal = true) : lengthOfOpcode (opcode c .and) = 3 := by
  simp [lengthOfOpcode, opcode, legal_operandCount h]

end Sys2Proof
end

