-- ==== Sys2Proof/Laws/State.lean ====
section
/-! SUPPORT. What each update of the state does to each field, and what it leaves of the registers; all by rfl, so
that no later proof unfolds a record update. -/

namespace Sys2Proof.Machine

variable (s : State)

/-! ### `setReg` -/

@[simp] theorem State.setReg_cfg (i : RegIdx) (v : Byte) : (s.setReg i v).cfg = s.cfg := rfl
@[simp] theorem State.setReg_regs (i : RegIdx) (v : Byte) : (s.setReg i v).regs = s.regs.set i.val v i.isLt := rfl
@[simp] theorem State.setReg_pc (i : RegIdx) (v : Byte) : (s.setReg i v).pc = s.pc := rfl
@[simp] theorem State.setReg_flags (i : RegIdx) (v : Byte) : (s.setReg i v).flags = s.flags := rfl
@[simp] theorem State.setReg_mem (i : RegIdx) (v : Byte) : (s.setReg i v).mem = s.mem := rfl
@[simp] theorem State.setReg_status (i : RegIdx) (v : Byte) : (s.setReg i v).status = s.status := rfl
@[simp] theorem State.setReg_fault (i : RegIdx) (v : Byte) : (s.setReg i v).fault = s.fault := rfl
@[simp] theorem State.setReg_out (i : RegIdx) (v : Byte) : (s.setReg i v).out = s.out := rfl

/-! ### `store` -/

@[simp] theorem State.store_cfg (addr v : Byte) : (s.store addr v).cfg = s.cfg := rfl
@[simp] theorem State.store_regs (addr v : Byte) : (s.store addr v).regs = s.regs := rfl
@[simp] theorem State.store_pc (addr v : Byte) : (s.store addr v).pc = s.pc := rfl
@[simp] theorem State.store_flags (addr v : Byte) : (s.store addr v).flags = s.flags := rfl
@[simp] theorem State.store_mem (addr v : Byte) : (s.store addr v).mem = s.mem.write addr v := rfl
@[simp] theorem State.store_status (addr v : Byte) : (s.store addr v).status = s.status := rfl
@[simp] theorem State.store_fault (addr v : Byte) : (s.store addr v).fault = s.fault := rfl
@[simp] theorem State.store_out (addr v : Byte) : (s.store addr v).out = s.out := rfl
@[simp] theorem State.store_reg (addr v : Byte) (j : RegIdx) : (s.store addr v).reg j = s.reg j := rfl
@[simp] theorem State.store_sp (addr v : Byte) : (s.store addr v).sp = s.sp := rfl

/-! ### `defaultAdvance` -/

@[simp] theorem State.defaultAdvance_cfg (ir : Byte) : (s.defaultAdvance ir).cfg = s.cfg := rfl
@[simp] theorem State.defaultAdvance_regs (ir : Byte) : (s.defaultAdvance ir).regs = s.regs := rfl
@[simp] theorem State.defaultAdvance_pc (ir : Byte) :
    (s.defaultAdvance ir).pc = s.pc + BitVec.ofNat 8 (lengthOfOpcode ir) := rfl
@[simp] theorem State.defaultAdvance_flags (ir : Byte) : (s.defaultAdvance ir).flags = s.flags := rfl
@[simp] theorem State.defaultAdvance_mem (ir : Byte) : (s.defaultAdvance ir).mem = s.mem := rfl
@[simp] theorem State.defaultAdvance_status (ir : Byte) : (s.defaultAdvance ir).status = s.status := rfl
@[simp] theorem State.defaultAdvance_fault (ir : Byte) : (s.defaultAdvance ir).fault = s.fault := rfl
@[simp] theorem State.defaultAdvance_out (ir : Byte) : (s.defaultAdvance ir).out = s.out := rfl
@[simp] theorem State.defaultAdvance_reg (ir : Byte) (j : RegIdx) : (s.defaultAdvance ir).reg j = s.reg j := rfl
@[simp] theorem State.defaultAdvance_sp (ir : Byte) : (s.defaultAdvance ir).sp = s.sp := rfl

/-! ### `jump` -/

@[simp] theorem State.jump_cfg (target : Byte) : (s.jump target).cfg = s.cfg := rfl
@[simp] theorem State.jump_regs (target : Byte) : (s.jump target).regs = s.regs := rfl
@[simp] theorem State.jump_pc (target : Byte) : (s.jump target).pc = target := rfl
@[simp] theorem State.jump_flags (target : Byte) : (s.jump target).flags = s.flags := rfl
@[simp] theorem State.jump_mem (target : Byte) : (s.jump target).mem = s.mem := rfl
@[simp] theorem State.jump_status (target : Byte) : (s.jump target).status = s.status := rfl
@[simp] theorem State.jump_fault (target : Byte) : (s.jump target).fault = s.fault := rfl
@[simp] theorem State.jump_out (target : Byte) : (s.jump target).out = s.out := rfl
@[simp] theorem State.jump_reg (target : Byte) (j : RegIdx) : (s.jump target).reg j = s.reg j := rfl
@[simp] theorem State.jump_sp (target : Byte) : (s.jump target).sp = s.sp := rfl

/-! ### `emit` -/

@[simp] theorem State.emit_cfg (v : Byte) : (s.emit v).cfg = s.cfg := rfl
@[simp] theorem State.emit_regs (v : Byte) : (s.emit v).regs = s.regs := rfl
@[simp] theorem State.emit_pc (v : Byte) : (s.emit v).pc = s.pc := rfl
@[simp] theorem State.emit_flags (v : Byte) : (s.emit v).flags = s.flags := rfl
@[simp] theorem State.emit_mem (v : Byte) : (s.emit v).mem = s.mem := rfl
@[simp] theorem State.emit_status (v : Byte) : (s.emit v).status = s.status := rfl
@[simp] theorem State.emit_fault (v : Byte) : (s.emit v).fault = s.fault := rfl
@[simp] theorem State.emit_out (v : Byte) : (s.emit v).out = s.out ++ [v] := rfl
@[simp] theorem State.emit_reg (v : Byte) (j : RegIdx) : (s.emit v).reg j = s.reg j := rfl
@[simp] theorem State.emit_sp (v : Byte) : (s.emit v).sp = s.sp := rfl

/-! ### `raise` -/

@[simp] theorem State.raise_cfg (c : FaultCause) (ir : Byte) (d : Option Byte) : (s.raise c ir d).cfg = s.cfg := rfl
@[simp] theorem State.raise_regs (c : FaultCause) (ir : Byte) (d : Option Byte) :
    (s.raise c ir d).regs = s.regs := rfl
@[simp] theorem State.raise_pc (c : FaultCause) (ir : Byte) (d : Option Byte) : (s.raise c ir d).pc = s.pc := rfl
@[simp] theorem State.raise_flags (c : FaultCause) (ir : Byte) (d : Option Byte) :
    (s.raise c ir d).flags = s.flags := rfl
@[simp] theorem State.raise_mem (c : FaultCause) (ir : Byte) (d : Option Byte) : (s.raise c ir d).mem = s.mem := rfl
@[simp] theorem State.raise_status (c : FaultCause) (ir : Byte) (d : Option Byte) :
    (s.raise c ir d).status = .faulted := rfl
@[simp] theorem State.raise_fault (c : FaultCause) (ir : Byte) (d : Option Byte) :
    (s.raise c ir d).fault = some { cause := c, address := s.pc, opcode := ir, detail := d } := rfl
@[simp] theorem State.raise_out (c : FaultCause) (ir : Byte) (d : Option Byte) : (s.raise c ir d).out = s.out := rfl
@[simp] theorem State.raise_reg (c : FaultCause) (ir : Byte) (d : Option Byte) (j : RegIdx) :
    (s.raise c ir d).reg j = s.reg j := rfl
@[simp] theorem State.raise_sp (c : FaultCause) (ir : Byte) (d : Option Byte) : (s.raise c ir d).sp = s.sp := rfl

/-! ### Registers through `setReg` -/

theorem State.reg_setReg (i j : RegIdx) (v : Byte) : (s.setReg i v).reg j = if i = j then v else s.reg j := by
  simp [State.reg, State.setReg, Vector.getElem_set, Fin.ext_iff]

@[simp] theorem State.reg_setReg_same (i : RegIdx) (v : Byte) : (s.setReg i v).reg i = v := by simp [State.reg_setReg]

theorem State.reg_setReg_other {i j : RegIdx} (h : j ≠ i) (v : Byte) : (s.setReg i v).reg j = s.reg j := by
  simp [State.reg_setReg, h.symm]

@[simp] theorem State.sp_setReg_sp (v : Byte) : (s.setReg spIdx v).sp = v := s.reg_setReg_same spIdx v

theorem State.sp_setReg_other {i : RegIdx} (h : i ≠ spIdx) (v : Byte) : (s.setReg i v).sp = s.sp :=
  s.reg_setReg_other h.symm v

/-! ### The stack's updates -/

@[simp] theorem State.decSp_sp : s.decSp.sp = s.sp - 1 := s.sp_setReg_sp _
@[simp] theorem State.incSp_sp : s.incSp.sp = s.sp + 1 := s.sp_setReg_sp _

theorem State.decSp_reg_other {j : RegIdx} (h : j ≠ spIdx) : s.decSp.reg j = s.reg j := s.reg_setReg_other h _
theorem State.incSp_reg_other {j : RegIdx} (h : j ≠ spIdx) : s.incSp.reg j = s.reg j := s.reg_setReg_other h _

/-- A push is the decrement followed by one store (spec/42_stack.md R101). -/
theorem State.pushByte_eq (v : Byte) : s.pushByte v = (s.setReg spIdx (s.sp - 1)).store (s.sp - 1) v := by
  simp [State.pushByte, State.decSp]

/-! ### Reset -/

theorem State.reset_eq : State.reset = State.resetWith Config.default := rfl

@[simp] theorem State.resetWith_sp (c : Config) : (State.resetWith c).sp = 0xF4#8 := rfl

end Sys2Proof.Machine
end

