-- ==== Sys2Proof/Laws/Memory.lean ====
section
/-! SUPPORT. The laws of memory: every operation keeps the canonical form, and a write changes exactly one cell
(spec/20_memory.md R41, R43). -/

namespace Sys2Proof.Machine

variable {lo a b : Nat} {v : Byte} {m : Memory}

theorem Memory.wfFrom_cons {lo a : Nat} {v : Byte} {m : Memory} :
    Memory.wfFrom lo ((a, v) :: m) = true ↔
      lo ≤ a ∧ a < Config.memSize ∧ v ≠ Config.memReset ∧ Memory.wfFrom (a + 1) m = true := by
  simp [Memory.wfFrom, and_assoc]

theorem Memory.wfFrom_mono {lo' : Nat} (h : lo' ≤ lo) (hm : m.wfFrom lo = true) : m.wfFrom lo' = true := by
  cases m with
  | nil => rfl
  | cons c rest =>
    obtain ⟨h1, h2⟩ := Memory.wfFrom_cons.mp hm
    exact Memory.wfFrom_cons.mpr ⟨h.trans h1, h2⟩

/-- A key below every listed one reads the reset value. -/
theorem Memory.readCell_of_lt (hm : m.wfFrom lo = true) (h : a < lo) : m.readCell a = Config.memReset := by
  induction m generalizing lo with
  | nil => rfl
  | cons c rest ih =>
    obtain ⟨h1, -, -, h2⟩ := Memory.wfFrom_cons.mp hm
    have hne : a ≠ c.1 := by omega
    simp only [Memory.readCell, hne, if_false]
    exact ih h2 (by omega)

theorem Memory.wfFrom_writeCell (hm : m.wfFrom lo = true) (hlo : lo ≤ a) (ha : a < Config.memSize) :
    (m.writeCell a v).wfFrom lo = true := by
  induction m generalizing lo with
  | nil =>
    by_cases hv : v = Config.memReset
    · simp [Memory.writeCell, hv, Memory.wfFrom]
    · simp [Memory.writeCell, hv, Memory.wfFrom, hlo, ha]
  | cons c rest ih =>
    obtain ⟨k, w⟩ := c
    obtain ⟨h1, h2, h3, h4⟩ := Memory.wfFrom_cons.mp hm
    simp only [Memory.writeCell]
    split_ifs with hlt hv heq hv
    · exact hm
    · exact Memory.wfFrom_cons.mpr ⟨hlo, ha, hv, Memory.wfFrom_cons.mpr ⟨hlt, h2, h3, h4⟩⟩
    · exact Memory.wfFrom_mono (by omega) h4
    · exact Memory.wfFrom_cons.mpr ⟨hlo, ha, hv, heq ▸ h4⟩
    · exact Memory.wfFrom_cons.mpr ⟨h1, h2, h3, ih h4 (by omega)⟩

theorem Memory.readCell_writeCell_same (hm : m.wfFrom lo = true) : (m.writeCell a v).readCell a = v := by
  induction m generalizing lo with
  | nil =>
    by_cases hv : v = Config.memReset
    · simp [Memory.writeCell, hv, Memory.readCell]
    · simp [Memory.writeCell, hv, Memory.readCell]
  | cons c rest ih =>
    obtain ⟨k, w⟩ := c
    obtain ⟨h1, h2, h3, h4⟩ := Memory.wfFrom_cons.mp hm
    simp only [Memory.writeCell]
    split_ifs with hlt hv heq hv
    · have hne : a ≠ k := by omega
      simp only [Memory.readCell, hne, if_false, hv]
      exact Memory.readCell_of_lt h4 (by omega)
    · simp [Memory.readCell]
    · rw [hv]
      exact Memory.readCell_of_lt h4 (by omega)
    · simp [Memory.readCell]
    · simp only [Memory.readCell, heq, if_false]
      exact ih h4

theorem Memory.readCell_writeCell_other (h : b ≠ a) : (m.writeCell a v).readCell b = m.readCell b := by
  induction m with
  | nil =>
    by_cases hv : v = Config.memReset
    · simp [Memory.writeCell, hv]
    · simp [Memory.writeCell, hv, Memory.readCell, h]
  | cons c rest ih =>
    obtain ⟨k, w⟩ := c
    simp only [Memory.writeCell]
    split_ifs with hlt hv heq hv
    · rfl
    · simp [Memory.readCell, h]
    · have hne : b ≠ k := by omega
      simp [Memory.readCell, hne]
    · have hne : b ≠ k := by omega
      simp [Memory.readCell, h, hne]
    · simp [Memory.readCell, ih]

/-! ### At 8-bit addresses -/

theorem Memory.wf_nil : Memory.wf [] = true := rfl

/-- Every memory operation keeps the canonical form. -/
theorem Memory.wf_write (hm : m.wf = true) (addr v : Byte) : (m.write addr v).wf = true :=
  Memory.wfFrom_writeCell hm (Nat.zero_le _) addr.isLt

theorem Memory.wf_writeBytes (bytes : List Byte) (hm : m.wf = true) (addr : Byte) :
    (m.writeBytes addr bytes).wf = true := by
  induction bytes generalizing m addr with
  | nil => exact hm
  | cons v vs ih => exact ih (Memory.wf_write hm addr v) (addr + 1)

theorem Memory.read_write_same (hm : m.wf = true) (addr v : Byte) : (m.write addr v).read addr = v :=
  Memory.readCell_writeCell_same hm

theorem Memory.read_write_other {addr addr' : Byte} (h : addr' ≠ addr) (v : Byte) :
    (m.write addr v).read addr' = m.read addr' :=
  Memory.readCell_writeCell_other fun e => h (BitVec.eq_of_toNat_eq e)

@[simp] theorem Memory.read_nil (addr : Byte) : Memory.read [] addr = 0x00#8 := rfl

/-! ### The machine's states -/

/-- Reset memory has the canonical form. -/
theorem State.resetWith_mem_wf (c : Config) : (State.resetWith c).mem.wf = true := rfl

theorem State.store_mem_wf {s : State} (h : s.mem.wf = true) (addr v : Byte) : (s.store addr v).mem.wf = true :=
  Memory.wf_write h addr v

theorem State.pushByte_mem_wf {s : State} (h : s.mem.wf = true) (v : Byte) : (s.pushByte v).mem.wf = true :=
  Memory.wf_write h _ v

theorem State.load_mem_wf {s t : State} {image : List Byte} (h : s.mem.wf = true) (hl : s.load image = some t) :
    t.mem.wf = true := by
  unfold State.load at hl
  split_ifs at hl
  cases hl
  exact Memory.wf_writeBytes image h _

theorem State.withFetchWord_mem_wf {s : State} (h : s.mem.wf = true) (nbits w : Nat) :
    (s.withFetchWord nbits w).mem.wf = true :=
  Memory.wf_writeBytes _ h _

end Sys2Proof.Machine
end

