-- ==== Sys2Proof/Laws/Ops.lean ====
section
/-! SUPPORT. One lemma per shared operation that says all it can do; the meanings' lemmas cite these. -/

namespace Sys2Proof.Machine

variable {s t : State} {ir op op1 op2 v : Byte} {r ra rb : RegIdx}

/-! ### Register operands (spec/30_encoding.md R63) -/

/-- A byte names the register whose index it is, and no other byte names it: nothing is masked. -/
theorem regIdx_eq_some : regIdx op = some r ↔ op.toNat = r.val := by
  unfold regIdx
  split
  · simp [Fin.ext_iff]
  · have := r.isLt
    simp only [reduceCtorEq, false_iff]
    omega

theorem regIdx_eq_none : regIdx op = none ↔ 7 < op.toNat := by
  unfold regIdx
  split <;> simp <;> omega

theorem withReg_legal {k : RegIdx → Result} (h : regIdx op = some r) : withReg ir op s k = k r := by
  simp [withReg, h]

theorem withReg_illegal {k : RegIdx → Result} (h : regIdx op = none) :
    withReg ir op s k = .next (s.raise .invalidRegisterIndex ir (some op)) := by
  simp [withReg, h]

/-- All that a register operand can lead to. -/
theorem withReg_next {k : RegIdx → Result} (h : withReg ir op s k = .next t) :
    (∃ r, regIdx op = some r ∧ k r = .next t) ∨
      (regIdx op = none ∧ t = s.raise .invalidRegisterIndex ir (some op)) := by
  cases hr : regIdx op with
  | some r =>
    rw [withReg_legal hr] at h
    exact .inl ⟨r, rfl, h⟩
  | none =>
    rw [withReg_illegal hr] at h
    exact .inr ⟨rfl, by simpa using h.symm⟩

theorem withRegs_legal {k : RegIdx → RegIdx → Result} (ha : regIdx op1 = some ra) (hb : regIdx op2 = some rb) :
    withRegs ir op1 op2 s k = k ra rb := by
  rw [withRegs, withReg_legal ha, withReg_legal hb]

/-- All that two register operands can lead to, the first checked first (spec/60_exceptions.md R128). -/
theorem withRegs_next {k : RegIdx → RegIdx → Result} (h : withRegs ir op1 op2 s k = .next t) :
    (∃ ra rb, regIdx op1 = some ra ∧ regIdx op2 = some rb ∧ k ra rb = .next t) ∨
      (regIdx op1 = none ∧ t = s.raise .invalidRegisterIndex ir (some op1)) ∨
      ((∃ ra, regIdx op1 = some ra) ∧ regIdx op2 = none ∧ t = s.raise .invalidRegisterIndex ir (some op2)) := by
  obtain ⟨ra, ha, h⟩ | h := withReg_next h
  · obtain ⟨rb, hb, h⟩ | h := withReg_next h
    · exact .inl ⟨ra, rb, ha, hb, h⟩
    · exact .inr (.inr ⟨⟨ra, ha⟩, h⟩)
  · exact .inr (.inl h)

/-! ### The stack (spec/42_stack.md R101, R102, R105) -/

/-- All that a push can lead to. -/
theorem withPush_next {k : State → Result} (h : withPush ir v s k = .next t) :
    (s.pushOverflows = false ∧ k (s.pushByte v) = .next t) ∨
      (s.pushOverflows = true ∧ t = s.raise .stackOverflow ir none) := by
  unfold withPush at h
  cases ho : s.pushOverflows with
  | false => exact .inl ⟨rfl, by simpa [ho] using h⟩
  | true => exact .inr ⟨rfl, by simpa [ho] using h.symm⟩

/-- All that a pop into `pc` can lead to. -/
theorem withPop_next {k : Byte → State → Result} (h : withPop ir s k = .next t) :
    (s.popUnderflows = false ∧ k s.topOfStack s.incSp = .next t) ∨
      (s.popUnderflows = true ∧ t = s.raise .stackUnderflow ir none) := by
  unfold withPop at h
  cases ho : s.popUnderflows with
  | false => exact .inl ⟨rfl, by simpa [ho] using h⟩
  | true => exact .inr ⟨rfl, by simpa [ho] using h.symm⟩

/-- What POP's guard tests: the popped byte for POP R7, else SP (spec/42_stack.md R104). -/
theorem State.popInto_popUnderflows (d : RegIdx) :
    (s.popInto d).popUnderflows = (s.cfg.stackGuard && (if d = spIdx then s.topOfStack else s.sp) == 0xFF#8) := by
  unfold State.popUnderflows State.popInto
  split_ifs with h
  · rw [h, State.sp_setReg_sp, State.setReg_cfg]
  · rw [State.sp_setReg_other s h, State.setReg_cfg]

/-- The byte pushed is the one on top of the stack. -/
theorem State.pushByte_topOfStack (h : s.mem.wf = true) : (s.pushByte v).topOfStack = v := by
  simp [State.topOfStack, State.pushByte, State.decSp, Memory.read_write_same h]

/-- A push changes one cell. -/
theorem State.pushByte_read_other {a : Byte} (h : a ≠ s.sp - 1) : (s.pushByte v).mem.read a = s.mem.read a := by
  rw [State.pushByte_eq]
  exact Memory.read_write_other h v

/-! ### The ALU (spec/41_alu.md R90) -/

theorem State.aluApply_add : s.aluApply .add ra rb = s.setReg ra (s.reg ra + s.reg rb) := rfl
theorem State.aluApply_mul : s.aluApply .mul ra rb = s.setReg ra (s.reg ra * s.reg rb) := rfl
theorem State.aluApply_and : s.aluApply .and ra rb = s.setReg ra (s.reg ra &&& s.reg rb) := rfl
theorem State.aluApply_cmp : s.aluApply .cmp ra rb = { s with flags := compareFlags (s.reg ra) (s.reg rb) } := rfl

/-! ### Flags (spec/41_alu.md R93) -/

/-- A comparison sets exactly one flag. -/
theorem compareFlags_oneSet (a b : Byte) : (compareFlags a b).oneSet = true := by
  unfold compareFlags
  split_ifs <;> rfl

end Sys2Proof.Machine
end

