-- ==== Sys2Proof/Laws/Exec.lean ====
section
/-! SUPPORT. What executing an instruction can do, said once: it raises a fault, or it has the one effect its rule
gives it. Whatever a proof needs of all instructions follows from this case split. -/

namespace Sys2Proof.Machine

/-- `t` is the state of a fault raised by `i` at `s`: never by HLT, never UnknownInstruction, with a detail exactly
for InvalidRegisterIndex, and a stack cause only with the guard on (spec/60_exceptions.md R120, R126). -/
def Raised (i : Instr) (s t : State) : Prop :=
  ∃ (cause : FaultCause) (detail : Option Byte),
    t = s.raise cause (opcode s.cfg i.mnemonic) detail ∧ i ≠ .hlt ∧ cause ≠ .unknownInstruction ∧
    (detail.isSome = true ↔ cause = .invalidRegisterIndex) ∧
    (cause = .stackOverflow ∨ cause = .stackUnderflow → s.cfg.stackGuard = true)

/-- `t` is the state after the effect of `i` at `s`, by the rule of each instruction. -/
def Effect (i : Instr) (s t : State) : Prop :=
  match i with
  | .hlt => t = { s with status := .halted }.defaultAdvance (opcode s.cfg .hlt)
  | .ldi a imm => ∃ r : RegIdx, a.toNat = r.val ∧ t = (s.setReg r imm).defaultAdvance (opcode s.cfg .ldi)
  | .prn a => ∃ r : RegIdx, a.toNat = r.val ∧ t = (s.emit (s.reg r)).defaultAdvance (opcode s.cfg .prn)
  | .mul a b => ∃ ra rb : RegIdx, a.toNat = ra.val ∧ b.toNat = rb.val ∧
      t = (s.setReg ra (s.reg ra * s.reg rb)).defaultAdvance (opcode s.cfg .mul)
  | .add a b => ∃ ra rb : RegIdx, a.toNat = ra.val ∧ b.toNat = rb.val ∧
      t = (s.setReg ra (s.reg ra + s.reg rb)).defaultAdvance (opcode s.cfg .add)
  | .cmp a b => ∃ ra rb : RegIdx, a.toNat = ra.val ∧ b.toNat = rb.val ∧
      t = { s with flags := compareFlags (s.reg ra) (s.reg rb) }.defaultAdvance (opcode s.cfg .cmp)
  | .and a b => ∃ ra rb : RegIdx, a.toNat = ra.val ∧ b.toNat = rb.val ∧
      t = (s.setReg ra (s.reg ra &&& s.reg rb)).defaultAdvance (opcode s.cfg .and)
  | .push a => ∃ r : RegIdx, a.toNat = r.val ∧ s.pushOverflows = false ∧
      t = (s.pushByte (s.decSp.reg r)).defaultAdvance (opcode s.cfg .push)
  | .pop a => ∃ d : RegIdx, a.toNat = d.val ∧ (s.popInto d).popUnderflows = false ∧
      t = (s.popInto d).incSp.defaultAdvance (opcode s.cfg .pop)
  | .call a => ∃ r : RegIdx, a.toNat = r.val ∧ s.pushOverflows = false ∧
      t = (s.pushByte (s.pc + 2)).jump ((s.pushByte (s.pc + 2)).reg r)
  | .ret => s.popUnderflows = false ∧ t = s.incSp.jump s.topOfStack
  | .jmp a => ∃ r : RegIdx, a.toNat = r.val ∧ t = s.jump (s.reg r)
  | .jne a => ∃ r : RegIdx, a.toNat = r.val ∧ t = s.branch (opcode s.cfg .jne) (!s.flags.E) r
  | .jeq a => ∃ r : RegIdx, a.toNat = r.val ∧ t = s.branch (opcode s.cfg .jeq) s.flags.E r

variable {s t : State} {i : Instr}

theorem raised_badOperand (hi : i ≠ .hlt) (b : Byte)
    (h : t = s.raise .invalidRegisterIndex (opcode s.cfg i.mnemonic) (some b)) : Raised i s t :=
  ⟨_, _, h, hi, by simp, by simp, by simp⟩

theorem raised_stackOverflow (hi : i ≠ .hlt) (ho : s.pushOverflows = true)
    (h : t = s.raise .stackOverflow (opcode s.cfg i.mnemonic) none) : Raised i s t :=
  ⟨_, _, h, hi, by simp, by simp, fun _ => (Bool.and_eq_true_iff.mp ho).1⟩

theorem raised_stackUnderflow (hi : i ≠ .hlt) (hg : s.cfg.stackGuard = true)
    (h : t = s.raise .stackUnderflow (opcode s.cfg i.mnemonic) none) : Raised i s t :=
  ⟨_, _, h, hi, by simp, by simp, fun _ => hg⟩

/-- The four ALU instructions share their two ways to fault. -/
theorem aluInstr_next {op : AluOp} {a b ir : Byte} (h : aluInstr ir op a b s = .next t) :
    (∃ ra rb : RegIdx, a.toNat = ra.val ∧ b.toNat = rb.val ∧ t = (s.aluApply op ra rb).defaultAdvance ir) ∨
      ∃ c : Byte, t = s.raise .invalidRegisterIndex ir (some c) := by
  obtain ⟨ra, rb, ha, hb, h⟩ | ⟨-, h⟩ | ⟨-, -, h⟩ := withRegs_next h
  · exact .inl ⟨ra, rb, regIdx_eq_some.mp ha, regIdx_eq_some.mp hb, by simpa using h.symm⟩
  · exact .inr ⟨a, h⟩
  · exact .inr ⟨b, h⟩

/-- Everything that executing an instruction can do. -/
theorem exec_next (h : Sys2Proof.Machine.exec i s = .next t) : Raised i s t ∨ Effect i s t := by
  cases i with
  | hlt => exact .inr (Host.Outcome.next.inj h).symm
  | ldi a imm =>
    obtain ⟨r, hr, h⟩ | ⟨-, h⟩ := withReg_next h
    · exact .inr ⟨r, regIdx_eq_some.mp hr, (Host.Outcome.next.inj h).symm⟩
    · exact .inl (raised_badOperand (by simp) a h)
  | prn a =>
    obtain ⟨r, hr, h⟩ | ⟨-, h⟩ := withReg_next h
    · exact .inr ⟨r, regIdx_eq_some.mp hr, (Host.Outcome.next.inj h).symm⟩
    · exact .inl (raised_badOperand (by simp) a h)
  | mul a b =>
    obtain h | ⟨c, h⟩ := aluInstr_next h
    · exact .inr h
    · exact .inl (raised_badOperand (by simp) c h)
  | add a b =>
    obtain h | ⟨c, h⟩ := aluInstr_next h
    · exact .inr h
    · exact .inl (raised_badOperand (by simp) c h)
  | cmp a b =>
    obtain h | ⟨c, h⟩ := aluInstr_next h
    · exact .inr h
    · exact .inl (raised_badOperand (by simp) c h)
  | and a b =>
    obtain h | ⟨c, h⟩ := aluInstr_next h
    · exact .inr h
    · exact .inl (raised_badOperand (by simp) c h)
  | push a =>
    obtain ⟨r, hr, h⟩ | ⟨-, h⟩ := withReg_next h
    · obtain ⟨ho, h⟩ | ⟨ho, h⟩ := withPush_next h
      · exact .inr ⟨r, regIdx_eq_some.mp hr, ho, (Host.Outcome.next.inj h).symm⟩
      · exact .inl (raised_stackOverflow (by simp) ho h)
    · exact .inl (raised_badOperand (by simp) a h)
  | pop a =>
    obtain ⟨d, hd, h⟩ | ⟨-, h⟩ := withReg_next h
    · cases ho : (s.popInto d).popUnderflows with
      | false =>
        rw [ho] at h
        exact .inr ⟨d, regIdx_eq_some.mp hd, ho, (Host.Outcome.next.inj h).symm⟩
      | true =>
        rw [ho] at h
        exact .inl (raised_stackUnderflow (by simp) (Bool.and_eq_true_iff.mp ho).1 (Host.Outcome.next.inj h).symm)
    · exact .inl (raised_badOperand (by simp) a h)
  | call a =>
    obtain ⟨r, hr, h⟩ | ⟨-, h⟩ := withReg_next h
    · obtain ⟨ho, h⟩ | ⟨ho, h⟩ := withPush_next h
      · exact .inr ⟨r, regIdx_eq_some.mp hr, ho, (Host.Outcome.next.inj h).symm⟩
      · exact .inl (raised_stackOverflow (by simp) ho h)
    · exact .inl (raised_badOperand (by simp) a h)
  | ret =>
    rw [exec, execRet] at h
    obtain ⟨ho, h⟩ | ⟨ho, h⟩ := withPop_next h
    · exact .inr ⟨ho, (Host.Outcome.next.inj h).symm⟩
    · exact .inl (raised_stackUnderflow (by simp) (Bool.and_eq_true_iff.mp ho).1 h)
  | jmp a =>
    obtain ⟨r, hr, h⟩ | ⟨-, h⟩ := withReg_next h
    · exact .inr ⟨r, regIdx_eq_some.mp hr, (Host.Outcome.next.inj h).symm⟩
    · exact .inl (raised_badOperand (by simp) a h)
  | jne a =>
    obtain ⟨r, hr, h⟩ | ⟨-, h⟩ := withReg_next h
    · exact .inr ⟨r, regIdx_eq_some.mp hr, (Host.Outcome.next.inj h).symm⟩
    · exact .inl (raised_badOperand (by simp) a h)
  | jeq a =>
    obtain ⟨r, hr, h⟩ | ⟨-, h⟩ := withReg_next h
    · exact .inr ⟨r, regIdx_eq_some.mp hr, (Host.Outcome.next.inj h).symm⟩
    · exact .inl (raised_badOperand (by simp) a h)

/-- Everything that a step can do: it runs the instruction it fetched, or raises UnknownInstruction
(spec/30_encoding.md R71). -/
theorem step_next (h : Sys2Proof.Machine.step s = .next t) :
    s.status = .running ∧
      ((∃ (i : Instr) (rest : List Byte), decode s.cfg s.fetchBytes = .ok (i, rest) ∧
          Sys2Proof.Machine.exec i s = .next t) ∨
        ((∃ e, decode s.cfg s.fetchBytes = .error e) ∧ t = s.raiseUnknown)) := by
  unfold step State.fetch at h
  cases hs : s.status with
  | running =>
    rw [hs] at h
    cases hd : decode s.cfg s.fetchBytes with
    | ok p =>
      rw [hd] at h
      exact ⟨rfl, .inl ⟨p.1, p.2, rfl, h⟩⟩
    | error e =>
      rw [hd] at h
      exact ⟨rfl, .inr ⟨⟨e, rfl⟩, (Host.Outcome.next.inj h).symm⟩⟩
  | halted => simp [hs] at h
  | faulted => simp [hs] at h

end Sys2Proof.Machine
end

