-- ==== Sys2Proof/Laws/PerInstr.lean ====
section
/-! SUPPORT. What holds of every instruction as syntax, one lemma per constructor. -/

namespace Sys2Proof.Laws

/-- The family `OperandsFill`: an instruction carries as many operand bytes as the top two bits of its opcode byte
say, and its register operands come first among them
(spec/30_encoding.md R60, R62, R65). -/
def OperandsFill.Statement (i : Instr) : Prop :=
  ∀ c : Config, c.legal = true →
    i.operandBytes.length = operandCount (opcode c i.mnemonic) ∧ i.regOperands <+: i.operandBytes

theorem OperandsFill.hlt : OperandsFill.Statement .hlt :=
  fun c _ => ⟨(Nat.succ.inj (lengthOfOpcode_hlt c)).symm, by simp [Instr.regOperands]⟩
theorem OperandsFill.ldi (reg imm : Byte) : OperandsFill.Statement (.ldi reg imm) :=
  fun c _ => ⟨(Nat.succ.inj (lengthOfOpcode_ldi c)).symm, [imm], rfl⟩
theorem OperandsFill.prn (reg : Byte) : OperandsFill.Statement (.prn reg) :=
  fun c _ => ⟨(Nat.succ.inj (lengthOfOpcode_prn c)).symm, [], rfl⟩
theorem OperandsFill.mul (regA regB : Byte) : OperandsFill.Statement (.mul regA regB) :=
  fun c _ => ⟨(Nat.succ.inj (lengthOfOpcode_mul c)).symm, [], rfl⟩
theorem OperandsFill.add (regA regB : Byte) : OperandsFill.Statement (.add regA regB) :=
  fun c _ => ⟨(Nat.succ.inj (lengthOfOpcode_add c)).symm, [], rfl⟩
theorem OperandsFill.cmp (regA regB : Byte) : OperandsFill.Statement (.cmp regA regB) :=
  fun c _ => ⟨(Nat.succ.inj (lengthOfOpcode_cmp c)).symm, [], rfl⟩
theorem OperandsFill.and (regA regB : Byte) : OperandsFill.Statement (.and regA regB) :=
  fun _ h => ⟨(legal_operandCount h).symm, [], rfl⟩
theorem OperandsFill.push (reg : Byte) : OperandsFill.Statement (.push reg) :=
  fun c _ => ⟨(Nat.succ.inj (lengthOfOpcode_push c)).symm, [], rfl⟩
theorem OperandsFill.pop (reg : Byte) : OperandsFill.Statement (.pop reg) :=
  fun c _ => ⟨(Nat.succ.inj (lengthOfOpcode_pop c)).symm, [], rfl⟩
theorem OperandsFill.call (reg : Byte) : OperandsFill.Statement (.call reg) :=
  fun c _ => ⟨(Nat.succ.inj (lengthOfOpcode_call c)).symm, [], rfl⟩
theorem OperandsFill.ret : OperandsFill.Statement .ret :=
  fun c _ => ⟨(Nat.succ.inj (lengthOfOpcode_ret c)).symm, by simp [Instr.regOperands]⟩
theorem OperandsFill.jmp (reg : Byte) : OperandsFill.Statement (.jmp reg) :=
  fun c _ => ⟨(Nat.succ.inj (lengthOfOpcode_jmp c)).symm, [], rfl⟩
theorem OperandsFill.jne (reg : Byte) : OperandsFill.Statement (.jne reg) :=
  fun c _ => ⟨(Nat.succ.inj (lengthOfOpcode_jne c)).symm, [], rfl⟩
theorem OperandsFill.jeq (reg : Byte) : OperandsFill.Statement (.jeq reg) :=
  fun c _ => ⟨(Nat.succ.inj (lengthOfOpcode_jeq c)).symm, [], rfl⟩

end Sys2Proof.Laws
end

