-- ==== Sys2Proof/Laws/Run.lean ====
section
/-! SUPPORT. Runs of several steps, one step at a time, and the induction over the reachable states packaged once. -/

namespace Sys2Proof.Machine

theorem run_zero (s : State) : run 0 s = .next s := rfl

theorem run_succ_of_next {s t : State} (k : Nat) (h : step s = .next t) :
    run (k + 1) s = run k t := by
  rw [run, h]

theorem run_succ_eq_next {s u : State} {k : Nat} (h : run (k + 1) s = .next u) :
    ∃ t : State, step s = .next t ∧ run k t = .next u := by
  rw [run] at h
  split at h
  · exact ⟨_, ‹_›, h⟩
  · cases h
  · cases h

/-- What holds at every launch and is kept by every step holds of every reachable state. -/
theorem Reachable.induct {cfg : Config} {P : State → Prop}
    (launch : ∀ image s, State.launch cfg image = some s → P s)
    (keep : ∀ s t, P s → Sys2Proof.Machine.step s = .next t → P t) {s : State} (h : Reachable cfg s) : P s := by
  induction h with
  | launch image s h => exact launch image s h
  | step s t _ hst ih => exact keep s t ih hst

end Sys2Proof.Machine
end

