-- ==== Sys2Proof/Tests/Slice0.lean ====
section
/-! SUPPORT. The model's own tests. Expected results come from spec/30_encoding.md R65 (words) and
spec/95_test_vectors.md (vectors V-…), never from the model. Then, for every statement that has hypotheses, a concrete
instance that meets them together. -/

namespace Sys2Proof.Tests

open Sys2Proof.Machine

/-! ### Well-formedness: each check refuses an ill-formed term -/

theorem test_wf_ldi : (Instr.ldi 7 0xFF).wellFormed = true ∧ (Instr.ldi 8 0).wellFormed = false := by decide
theorem test_wf_first_operand : (Instr.add 8 0).wellFormed = false ∧ (Instr.cmp 0xFF 0).wellFormed = false := by decide
theorem test_wf_second_operand : (Instr.mul 7 8).wellFormed = false ∧ (Instr.and 0 0x10).wellFormed = false := by decide
theorem test_wf_one_operand : ∀ mk ∈ [Instr.prn, .push, .pop, .call, .jmp, .jne, .jeq],
    (mk 7).wellFormed = true ∧ (mk 8).wellFormed = false := by decide
theorem test_wf_no_operand : Instr.hlt.wellFormed = true ∧ Instr.ret.wellFormed = true := by decide
theorem test_config_legal_refuses_collision :
    Config.legal { andOpcode := 0xA0, stackGuard := false } = false := by decide
theorem test_config_legal_refuses_count : Config.legal { andOpcode := 0x68, stackGuard := true } = false := by decide
theorem test_memory_wf_refuses_order : Memory.wf [(5, 1), (4, 1)] = false := by decide
theorem test_memory_wf_refuses_repeat : Memory.wf [(5, 1), (5, 2)] = false := by decide
theorem test_memory_wf_refuses_reset_value : Memory.wf [(5, 0)] = false := by decide
theorem test_memory_wf_refuses_outside : Memory.wf [(256, 1)] = false := by decide

/-! ### Decoding: every instruction's bytes written out from R65's bit patterns (the last byte belongs to the next
instruction) -/

/-- The instruction at the head of some bytes and what is left. -/
def read (bytes : List Byte) : Option (Instr × List Byte) :=
  match decode Config.default bytes with
  | .ok p => some p
  | .error _ => none

theorem test_decode_hlt : read [0b00000001, 0b00000001] = some (.hlt, [1]) := by decide
theorem test_decode_ldi : read [0b10000010, 0b00000101, 0b11111110, 1] = some (.ldi 5 0xFE, [1]) := by decide
theorem test_decode_prn : read [0b01000111, 0b00000110, 1] = some (.prn 6, [1]) := by decide
theorem test_decode_mul : read [0b10100010, 0b00000011, 0b00000100, 1] = some (.mul 3 4, [1]) := by decide
theorem test_decode_add : read [0b10100000, 0b00000011, 0b00000100, 1] = some (.add 3 4, [1]) := by decide
theorem test_decode_cmp : read [0b10100111, 0b00000011, 0b00000100, 1] = some (.cmp 3 4, [1]) := by decide
theorem test_decode_and : read [0b10101000, 0b00000011, 0b00000100, 1] = some (.and 3 4, [1]) := by decide
theorem test_decode_push : read [0b01000101, 0b00000111, 1] = some (.push 7, [1]) := by decide
theorem test_decode_pop : read [0b01000110, 0b00000111, 1] = some (.pop 7, [1]) := by decide
theorem test_decode_call : read [0b01010000, 0b00000001, 1] = some (.call 1, [1]) := by decide
theorem test_decode_ret : read [0b00010001, 1] = some (.ret, [1]) := by decide
theorem test_decode_jmp : read [0b01010100, 0b00000010, 1] = some (.jmp 2, [1]) := by decide
theorem test_decode_jne : read [0b01010110, 0b00000010, 1] = some (.jne 2, [1]) := by decide
theorem test_decode_jeq : read [0b01010101, 0b00000010, 1] = some (.jeq 2, [1]) := by decide

/-- V-ENC-7 to V-ENC-11. -/
theorem test_decode_illegal : ∀ ir ∈ [0x00#8, 0x02#8, 0xC1#8, 0xA1#8, 0xFF#8],
    decodeOpcode Config.default ir = none := by decide

/-- R67: 242 of the 256 opcode values are illegal. -/
theorem test_decode_counts :
    ((List.range 256).filter fun n => decodeOpcode Config.default (BitVec.ofNat 8 n) == none).length = 242 := by
  decide +kernel

/-- A word shorter than its instruction: the bits above it are 0. -/
theorem test_decode_short_word : decodeTableWord 8 0x82 = some (.ldi 0 0) := by decide

/-! ### Single steps -/

/-- The next state, if there is one. -/
def answer : Result → Option State
  | .next s => some s
  | .fault _ => none
  | .refused _ => none

theorem next_of_answer {r : Result} {t : State} (h : answer r = some t) : r = .next t := by
  cases r <;> simp_all [answer]

/-- The reset state with some bytes in memory from `pc` upward. -/
def at_ (pc : Byte) (bytes : List Byte) : State :=
  { State.reset with pc := pc, mem := Memory.writeBytes [] pc bytes }

/-- The same with `x[0]`, `x[1]` and SP set. -/
def code (pc : Byte) (bytes : List Byte) (r0 r1 sp : Byte) : State :=
  (((at_ pc bytes).setReg 0 r0).setReg 1 r1).setReg 7 sp

/-- The same machine with STACK_GUARD on. -/
def guarded (s : State) : State := { s with cfg := { s.cfg with stackGuard := true } }

/-- What one step does to one view of the state. -/
def after {α : Type} (s : State) (view : State → α) : Option α := (answer (step s)).map view

-- V-BAS-9, V-BAS-10
theorem test_hlt : after (at_ 0x05 [0x01]) (fun t => (t.status, t.pc)) = some (.halted, 0x06) := by decide
theorem test_hlt_wraps : after (at_ 0xFF [0x01]) (fun t => (t.status, t.pc)) = some (.halted, 0x00) := by decide
-- V-BAS-3, V-BAS-4
theorem test_ldi_bad_register :
    after (code 0x10 [0x82, 0x08, 0x01] 0x55 0 0xF4) (fun t => (t.status, t.fault, t.pc, t.reg 0)) =
    some (.faulted, some ⟨.invalidRegisterIndex, 0x10, 0x82, some 0x08⟩, 0x10, 0x55) := by decide
theorem test_ldi_straddles :
    after (at_ 0xFF [0x82, 0x01, 0x77]) (fun t => (t.reg 1, t.pc)) = some (0x77, 0x02) := by decide
-- V-BAS-5, V-BAS-8
theorem test_prn_sp : after (at_ 0x00 [0x47, 0x07]) (fun t => (t.out, t.pc)) = some ([244], 0x02) := by decide
theorem test_prn_bad_register : after (at_ 0x20 [0x47, 0xFF]) (fun t => (t.fault, t.out)) =
    some (some ⟨.invalidRegisterIndex, 0x20, 0x47, some 0xFF⟩, []) := by decide
-- V-ALU-6, V-ALU-7
theorem test_mul_wraps :
    after (code 0x30 [0xA2, 0x00, 0x01] 255 255 0xF4) (fun t => (t.reg 0, t.reg 1)) = some (1, 255) := by decide
theorem test_mul_squares :
    after (code 0x30 [0xA2, 0x00, 0x00] 0x0F 0 0xF4) (fun t => (t.reg 0, t.pc)) = some (0xE1, 0x33) := by decide
-- V-ALU-9, V-ALU-17
theorem test_add :
    after (code 0x30 [0xA0, 0x00, 0x01] 0xCC 0xAA 0xF4) (fun t => (t.reg 0, t.reg 1)) = some (0x76, 0xAA) := by decide
theorem test_add_reports_first : after (at_ 0x30 [0xA0, 0x10, 0x20]) (fun t => (t.fault, t.pc)) =
    some (some ⟨.invalidRegisterIndex, 0x30, 0xA0, some 0x10⟩, 0x30) := by decide
-- V-ALU-13, V-ALU-15
theorem test_cmp_unsigned : after (code 0x30 [0xA7, 0x00, 0x01] 0x80 0x7F 0xF4) (fun t => (t.flags, t.reg 0)) =
    some (⟨false, true, false⟩, 0x80) := by decide
theorem test_cmp_less : after (code 0x30 [0xA7, 0x00, 0x01] 0x00 0xFF 0xF4) (fun t => t.flags) =
    some ⟨true, false, false⟩ := by decide
-- V-ALU-8
theorem test_and :
    after (code 0x30 [0xA8, 0x00, 0x01] 0xCC 0xAA 0xF4) (fun t => (t.reg 0, t.pc)) = some (0x88, 0x33) := by decide
-- V-STK-3, V-STK-10
theorem test_push_sp : after (at_ 0x10 [0x45, 0x07]) (fun t => (t.sp, t.mem.read 0xF3)) = some (0xF3, 0xF3) := by decide
theorem test_push_over_itself : after (code 0x20 [0x45, 0x00] 0x01 0 0x21) (fun t => (t.sp, t.mem.read 0x20, t.pc)) =
    some (0x20, 0x01, 0x22) := by decide
-- V-STK-4 and V-STK-13
theorem test_pop_sp : after { code 0x10 [0x46, 0x07] 0 0 0xF3 with mem := [(0x10, 0x46), (0x11, 0x07), (0xF3, 0x20)] }
    (fun t => (t.sp, t.mem.read 0xF3)) = some (0x21, 0x20) := by decide
theorem test_pop_sp_guarded :
    after (guarded { code 0x10 [] 0 0 0xF0 with mem := [(0x10, 0x46), (0x11, 0x07), (0xF0, 0xFF)] })
      (fun t => (t.fault, t.sp)) = some (some ⟨.stackUnderflow, 0x10, 0x46, none⟩, 0xF0) := by decide
-- V-CTL-4, V-CTL-5
theorem test_call_wraps : after (code 0xFF [0x50, 0x01] 0 0x40 0xF4) (fun t => (t.mem.read 0xF3, t.sp, t.pc)) =
    some (0x01, 0xF3, 0x40) := by decide
theorem test_call_sp : after (at_ 0x10 [0x50, 0x07]) (fun t => (t.sp, t.mem.read 0xF3, t.pc)) =
    some (0xF3, 0x12, 0xF3) := by decide
-- V-CTL-15
theorem test_ret_wraps :
    after { code 0x10 [] 0 0 0xFF with mem := [(0x10, 0x11), (0xFF, 0x44)] } (fun t => (t.pc, t.sp)) =
    some (0x44, 0x00) := by decide
-- V-CTL-6
theorem test_jmp : after (code 0x09 [0x54, 0x01] 0 0x40 0xF4) (fun t => (t.pc, t.sp)) = some (0x40, 0xF4) := by decide
-- V-CTL-7, V-CTL-8
theorem test_jne_taken :
    after { code 0x10 [0x56, 0x01] 0 0x06 0xF4 with flags := ⟨true, false, false⟩ } (fun t => t.pc) =
    some 0x06 := by decide
theorem test_jne_not_taken :
    after { code 0x10 [0x56, 0x01] 0 0x06 0xF4 with flags := ⟨false, false, true⟩ } (fun t => t.pc) =
    some 0x12 := by decide
-- V-CTL-10, V-CTL-13
theorem test_jeq_taken :
    after { code 0x10 [0x55, 0x01] 0 0x30 0xF4 with flags := ⟨false, false, true⟩ } (fun t => t.pc) =
    some 0x30 := by decide
theorem test_jeq_bad_register :
    after { at_ 0x10 [0x55, 0x08] with flags := ⟨false, true, false⟩ } (fun t => (t.fault, t.pc)) =
    some (some ⟨.invalidRegisterIndex, 0x10, 0x55, some 0x08⟩, 0x10) := by decide
-- V-FLT-3, V-BAS-11
theorem test_unknown_first : after (at_ 0x40 [0xA1, 0x09, 0x09]) (fun t => (t.status, t.fault)) =
    some (.faulted, some ⟨.unknownInstruction, 0x40, 0xA1, none⟩) := by decide
theorem test_no_step_after_halt : answer (step { at_ 0 [0x01] with status := .halted }) = none := by decide
-- R23 and R120: the host's views
theorem test_flags_packed : Flags.packed ⟨true, false, true⟩ = 0b00000101 := by decide
theorem test_cause_codes : [FaultCause.unknownInstruction, .invalidRegisterIndex, .stackOverflow, .stackUnderflow].map
    FaultCause.code = [1, 2, 3, 4] := by decide

/-! ### Witnesses: for each statement with hypotheses, an instance that meets them all -/

theorem witness_DecodeOfEncode : Config.default.legal = true ∧
    Config.legal { andOpcode := 0xBF, stackGuard := true } = true := by decide
theorem witness_EncodeOfDecode : decode Config.default [0x82, 0x08, 0xFF, 0x01] = .ok (.ldi 0x08 0xFF, [0x01]) := rfl
theorem witness_UnknownOpcodesRefused :
    decodeOpcode Config.default 0xA9 = none ∧ decodeOpcode Config.default 0xA8 = some .and := by decide
theorem witness_LengthFromTopTwoBits : Config.default.legal = true ∧
    decode Config.default [0x11, 0x00] = .ok (.ret, [0x00]) ∧
    decode Config.default [0x45, 0x07, 0x00] = .ok (.push 7, [0x00]) ∧
    decode Config.default [0xA8, 0x07, 0x00, 0x01] = .ok (.and 7 0, [0x01]) := ⟨by decide, rfl, rfl, rfl⟩
theorem witness_StepRunsDecodedInstruction :
    (at_ 0xFE [0xA0, 0x07, 0x08]).status = .running ∧
    decode Config.default ((at_ 0xFE [0xA0, 0x07, 0x08]).fetchBytes) = .ok (.add 7 8, []) := ⟨rfl, rfl⟩

/-- LDI R1, 0x77 with its opcode at the last address. -/
def straddling : State := at_ 0xFF [0x82, 0x01, 0x77]

theorem witness_StepRunsInstructionInMemory :
    straddling.status = .running ∧ straddling.cfg.legal = true ∧
    ∀ (k : Nat) (b : Byte), (encode straddling.cfg (.ldi 1 0x77))[k]? = some b →
      straddling.mem.read (straddling.pc + BitVec.ofNat 8 k) = b := by
  refine ⟨rfl, by decide, fun k b h => ?_⟩
  match k with
  | 0 => cases h; decide
  | 1 => cases h; decide
  | 2 => cases h; decide
  | k + 3 => cases h

theorem witness_StepFaultsOnUnknownOpcode :
    State.reset.status = .running ∧
    State.reset.mem.read State.reset.pc ∉
      [0x01#8, 0x11#8, 0x45#8, 0x46#8, 0x47#8, 0x50#8, 0x54#8, 0x55#8, 0x56#8, 0x82#8, 0xA0#8, 0xA2#8, 0xA7#8] ∧
    State.reset.mem.read State.reset.pc ≠ State.reset.cfg.andOpcode := by decide
theorem witness_TerminalStatesAreFinal :
    ({ State.reset with status := .halted } : State).status = .halted ∧
    (State.reset.raise .unknownInstruction 0 none).status = .faulted := by decide
theorem witness_RunningMachineAlwaysSteps : State.reset.status = .running := rfl

/-- The statements that ask only for a legal register operand, at both ends of its range. -/
theorem witness_LdiLoadsImmediate : (0x00#8).toNat = (0 : RegIdx).val ∧ (0x07#8).toNat = (7 : RegIdx).val := by decide
theorem witness_PrnEmitsRegister : (0x00#8).toNat = (0 : RegIdx).val ∧ (0x07#8).toNat = (7 : RegIdx).val := by decide
theorem witness_MulAddWriteResult : (0x07#8).toNat = (7 : RegIdx).val ∧ (0x00#8).toNat = (0 : RegIdx).val := by decide
theorem witness_JumpsWritePc : (0x07#8).toNat = (7 : RegIdx).val ∧ State.reset.flags.E = false ∧
    ({ State.reset with flags := ⟨false, false, true⟩ } : State).flags.E = true := by decide

theorem witness_LdiThenPrnEmitsImmediate :
    (at_ 0xFD [0x82, 0x07, 0x55, 0x47, 0x07]).status = .running ∧ (0x07#8).toNat < 8 ∧
    [0xFD, 0xFE, 0xFF, 0x00, 0x01].map (at_ 0xFD [0x82, 0x07, 0x55, 0x47, 0x07]).mem.read =
      [0x82#8, 0x07#8, 0x55#8, 0x47#8, 0x07#8] := by decide
/-- One instance for each of the three orders of `CmpSetsOneFlag`. -/
theorem witness_CmpSetsOneFlag :
    (0x00#8).toNat = (0 : RegIdx).val ∧ (0x01#8).toNat = (1 : RegIdx).val ∧
    ((code 0 [] 0xFE 0xFF 0xF4).reg 0).toNat < ((code 0 [] 0xFE 0xFF 0xF4).reg 1).toNat ∧
    ((code 0 [] 1 0 0xF4).reg 0).toNat > ((code 0 [] 1 0 0xF4).reg 1).toNat ∧
    ((code 0 [] 255 255 0xF4).reg 0).toNat = ((code 0 [] 255 255 0xF4).reg 1).toNat := by decide
theorem witness_AndWritesResult : State.reset.cfg.legal = true ∧
    (0x07#8).toNat = (7 : RegIdx).val ∧ (0x00#8).toNat = (0 : RegIdx).val := by decide
/-- The guard's condition just inside the edge with the guard on, and on the edge with it off. -/
theorem witness_PushStoresRegister : (0x07#8).toNat = (7 : RegIdx).val ∧
    ¬((guarded (code 0 [] 0 0 0x01)).cfg.stackGuard = true ∧ (guarded (code 0 [] 0 0 0x01)).regs[7] = 0x00#8) ∧
    ¬((code 0 [] 0 0 0x00).cfg.stackGuard = true ∧ (code 0 [] 0 0 0x00).regs[7] = 0x00#8) := by decide
theorem witness_CallPushesReturnAddress : (0x00#8).toNat = (0 : RegIdx).val ∧
    ¬((guarded (code 0 [] 0 0 0x01)).cfg.stackGuard = true ∧ (guarded (code 0 [] 0 0 0x01)).regs[7] = 0x00#8) ∧
    ¬((code 0 [] 0 0 0x00).cfg.stackGuard = true ∧ (code 0 [] 0 0 0x00).regs[7] = 0x00#8) := by decide
theorem witness_RetPopsPc :
    ¬((guarded (code 0 [] 0 0 0xFE)).cfg.stackGuard = true ∧ (guarded (code 0 [] 0 0 0xFE)).regs[7] = 0xFF#8) ∧
    ¬((code 0 [] 0 0 0xFF).cfg.stackGuard = true ∧ (code 0 [] 0 0 0xFF).regs[7] = 0xFF#8) := by decide
/-- POP R7 with SP at 0xFF and a popped byte below it, and POP R0 with the popped byte 0xFF below the edge. -/
theorem witness_PopLoadsRegister :
    (0x07#8).toNat = (7 : RegIdx).val ∧ (0x00#8).toNat = (0 : RegIdx).val ∧
    (let s := guarded { code 0 [] 0 0 0xFF with mem := [(0xFF, 0x20)] }
     ¬(s.cfg.stackGuard = true ∧
      (((7 : RegIdx) ≠ 7 ∧ s.regs[7] = 0xFF#8) ∨ ((7 : RegIdx) = 7 ∧ s.mem.read s.regs[7] = 0xFF#8)))) ∧
    (let s := guarded { code 0 [] 0 0 0xFE with mem := [(0xFE, 0xFF)] }
     ¬(s.cfg.stackGuard = true ∧
      (((0 : RegIdx) ≠ 7 ∧ s.regs[7] = 0xFF#8) ∨ ((0 : RegIdx) = 7 ∧ s.mem.read s.regs[7] = 0xFF#8)))) := by decide
theorem witness_PushThenPopRestores :
    (0x07#8).toNat < 8 ∧ (guarded State.reset).mem.wf = true ∧
    ¬((guarded State.reset).cfg.stackGuard = true ∧ (guarded State.reset).sp = 0x00#8) := by decide

/-- The state after `CALL R1` at the reset SP. -/
def called : State := ((code 0x06 [0x50, 0x01] 0 0x20 0xF4).pushByte 0x08).jump 0x20

theorem witness_RetReturnsAfterCall :
    (code 0x06 [0x50, 0x01] 0 0x20 0xF4).mem.wf = true ∧ (0x01#8).toNat < 8 ∧
    ¬((code 0x06 [0x50, 0x01] 0 0x20 0xF4).cfg.stackGuard = true ∧ (code 0x06 [0x50, 0x01] 0 0x20 0xF4).sp = 0x00#8) ∧
    exec (.call 1) (code 0x06 [0x50, 0x01] 0 0x20 0xF4) = .next called ∧
    (called.setReg 0 9).cfg = called.cfg ∧ (called.setReg 0 9).sp = called.sp ∧
    (called.setReg 0 9).mem.read (called.setReg 0 9).sp = called.mem.read called.sp :=
  ⟨by decide, by decide, by decide, next_of_answer (by decide), by decide, by decide, by decide⟩
-- V-CTL-14
theorem witness_JumpToSelfRunsForever :
    (code 0x03 [0x54, 0x00] 0x03 0 0xF4).status = .running ∧ (0x00#8).toNat = (0 : RegIdx).val ∧
    (code 0x03 [0x54, 0x00] 0x03 0 0xF4).mem.read 0x03 = 0x54 ∧ (code 0x03 [0x54, 0x00] 0x03 0 0xF4).mem.read 0x04 = 0 ∧
    (code 0x03 [0x54, 0x00] 0x03 0 0xF4).reg 0 = (code 0x03 [0x54, 0x00] 0x03 0 0xF4).pc := by decide
-- P6, at its PUSH
theorem witness_FetchSeesPushedOpcode :
    (code 0x06 [0x45, 0x00, 0x47] 0x01 0 0x09).status = .running ∧ (code 0x06 [0x45, 0x00, 0x47] 0x01 0 0x09).mem.wf = true ∧
    (0x00#8).toNat = (0 : RegIdx).val ∧ (0 : RegIdx) ≠ 7 ∧
    (code 0x06 [0x45, 0x00, 0x47] 0x01 0 0x09).mem.read 0x06 = 0x45 ∧ (code 0x06 [0x45, 0x00, 0x47] 0x01 0 0x09).mem.read 0x07 = 0 ∧
    (code 0x06 [0x45, 0x00, 0x47] 0x01 0 0x09).reg 0 = 0x01 ∧ (code 0x06 [0x45, 0x00, 0x47] 0x01 0 0x09).sp - 1 = 0x06 + 2 ∧
    ¬((code 0x06 [0x45, 0x00, 0x47] 0x01 0 0x09).cfg.stackGuard = true ∧
      (code 0x06 [0x45, 0x00, 0x47] 0x01 0 0x09).sp = 0x00#8) := by decide
/-- For `PcUpdate`: a running, legal state where JNE goes on, and one where it faults. -/
theorem witness_PcUpdate :
    State.reset.status = .running ∧ State.reset.cfg.legal = true ∧
    (∃ t, exec (.jne 7) State.reset = .next t ∧ t.status ≠ .faulted) ∧
    (∃ t, exec (.jne 8) State.reset = .next t ∧ t.status = .faulted) :=
  ⟨rfl, by decide, ⟨_, rfl, by decide⟩, ⟨_, rfl, by decide⟩⟩
/-- For `RegisterFrame`: POP R0 and a register that is neither R0 nor SP; ADD R7 and a register that is not R7. -/
theorem witness_RegisterFrame :
    (∃ t, exec (.pop 0) State.reset = .next t ∧ (0x00#8).toNat ≠ (6 : RegIdx).val ∧ (6 : RegIdx) ≠ 7) ∧
    (∃ t, exec (.add 7 0) State.reset = .next t ∧ (0x07#8).toNat ≠ (0 : RegIdx).val) :=
  ⟨⟨_, rfl, by decide, by decide⟩, ⟨_, rfl, by decide⟩⟩
/-- For `MemoryFrame`: CALL and PUSH, and the address above the one stored to. -/
theorem witness_MemoryFrame :
    (∃ t, exec (.call 0) State.reset = .next t ∧ (0xF4#8) ≠ State.reset.decSp.sp) ∧
    (∃ t, exec (.push 7) State.reset = .next t ∧ (0xF4#8) ≠ State.reset.decSp.sp) :=
  ⟨⟨_, rfl, by decide⟩, ⟨_, rfl, by decide⟩⟩
/-- For `FlagsWrittenByCmpReadByJumps`: an instruction that is no CMP, legal operands of CMP, and a JEQ with L changed
and E kept. -/
theorem witness_FlagsWrittenByCmpReadByJumps :
    (∃ t, exec .ret State.reset = .next t ∧ ∀ a b, Instr.ret ≠ .cmp a b) ∧
    (0x00#8).toNat < 8 ∧ (0x07#8).toNat < 8 ∧
    (∃ t, exec (.jeq 0) State.reset = .next t) ∧ (Flags.mk true false false).E = State.reset.flags.E :=
  ⟨⟨_, rfl, fun _ _ => by simp⟩, by decide, by decide, ⟨_, rfl⟩, rfl⟩
theorem witness_OutputFrame_StatusFrame :
    (∃ t, exec (.prn 7) State.reset = .next t) ∧ (∃ t, exec .hlt State.reset = .next t) ∧
    (∃ t, exec (.prn 8) State.reset = .next t) := ⟨⟨_, rfl⟩, ⟨_, rfl⟩, ⟨_, rfl⟩⟩
/-- For `BadRegisterOperandFaults`: the first bad byte is the one found, at the edge of the range. -/
theorem witness_BadRegisterOperandFaults :
    (Instr.cmp 8 9).regOperands.find? (fun x => decide (7 < x.toNat)) = some 8 ∧
    (Instr.cmp 7 0xFF).regOperands.find? (fun x => decide (7 < x.toNat)) = some 0xFF ∧
    (Instr.ldi 7 8).regOperands.find? (fun x => decide (7 < x.toNat)) = none := by decide
/-- One instance for each clause of `StackGuardFaults`. -/
theorem witness_StackGuardFaults :
    (guarded (code 0 [] 0 0 0x00)).cfg.stackGuard = true ∧ (guarded (code 0 [] 0 0 0x00)).sp = 0x00 ∧
    (guarded (code 0 [] 0 0 0xFF)).cfg.stackGuard = true ∧ (guarded (code 0 [] 0 0 0xFF)).sp = 0xFF ∧ (0 : RegIdx) ≠ 7 ∧
    (let s := guarded { code 0 [] 0 0 0xF0 with mem := [(0xF0, 0xFF)] }
     s.cfg.stackGuard = true ∧ s.mem.read s.sp = 0xFF) := by decide
theorem witness_FaultsArePrecise :
    (∃ t, step State.reset = .next t ∧ t.status = .faulted) ∧
    (∃ t, step (guarded (code 0 [0x45, 0x00] 0 0 0x00)) = .next t ∧ t.status = .faulted) ∧
    (∃ t, step (at_ 0 [0x54, 0x08]) = .next t ∧ t.status = .faulted) :=
  ⟨⟨_, rfl, by decide⟩, ⟨_, rfl, by decide⟩, ⟨_, rfl, by decide⟩⟩
theorem witness_CanonicalMemoryIsUnique :
    Memory.wf [(0, 1), (255, 2)] = true ∧ Memory.wf (Memory.write (Memory.write [] 0xFF 2) 0 1) = true ∧
    (Memory.write (Memory.write [] 0xFF 2) 0 1) = [(0, 1), (255, 2)] := by decide
theorem witness_LaunchStateHoldsImage :
    (∃ s, State.launch Config.default [0x82, 0x00, 0x08] = some s) ∧
    (List.replicate 256 0x01#8).length ≤ 256 ∧ ¬(List.replicate 257 0x01#8).length ≤ 256 :=
  ⟨⟨_, rfl⟩, by rw [List.length_replicate], by rw [List.length_replicate]; decide⟩
theorem witness_StepKeepsInvariant :
    State.reset.Inv ∧ (∃ t, step State.reset = .next t) ∧
    (code 0 [0x45, 0x00] 5 0 0xF4).Inv ∧ (∃ t, step (code 0 [0x45, 0x00] 5 0 0xF4) = .next t) :=
  ⟨by decide, ⟨_, rfl⟩, by decide, ⟨_, rfl⟩⟩
theorem witness_ReachableStatesHaveInvariant :
    Config.default.legal = true ∧ ∃ t, Reachable Config.default t ∧ t.status = .faulted :=
  ⟨by decide, State.reset.raiseUnknown, .step State.reset _ (.launch [] _ rfl) rfl, rfl⟩
theorem witness_OneFlagStaysSet :
    (∃ t, Flags.oneSet ⟨false, false, true⟩ = true ∧
      step { at_ 0 [0x01] with flags := ⟨false, false, true⟩ } = .next t) ∧
    (at_ 0 [0xA7, 0x00, 0x07]).mem.read (at_ 0 [0xA7, 0x00, 0x07]).pc = 0xA7#8 ∧
    (∃ t, step (at_ 0 [0xA7, 0x00, 0x07]) = .next t ∧ t.status = .running) :=
  ⟨⟨_, by decide, rfl⟩, by decide, ⟨_, rfl, by decide⟩⟩
theorem witness_OutputOnlyGrows : ∃ t, run 2 (at_ 0 [0x47, 0x07, 0x01]) = .next t ∧ t.out = [0xF4] :=
  ⟨_, rfl, by decide⟩
/-- For `SafeStepNeverFaults`: PUSH R7 just inside the guard's edge is safe; an unknown opcode, a second register byte
of 8, and each edge of the guard are not. Every state has the invariant and is RUNNING. -/
theorem witness_SafeStepNeverFaults :
    (∀ s ∈ [guarded (code 0 [0x45, 0x07] 0 0 0x01), State.reset, at_ 0xFE [0xA8, 0x07, 0x08],
        guarded (code 0 [0x50, 0x00] 0 0 0x00), guarded (code 0 [0x11] 0 0 0xFF),
        guarded (code 0 [0x46, 0x06] 0 0 0xFF)], s.Inv ∧ s.status = .running) ∧
    (guarded (code 0 [0x45, 0x07] 0 0 0x01)).SafeStep ∧
    ¬State.reset.KnownOpcode ∧ ¬(at_ 0xFE [0xA8, 0x07, 0x08]).LegalRegBytes ∧
    ¬(guarded (code 0 [0x50, 0x00] 0 0 0x00)).GuardAllows ∧ ¬(guarded (code 0 [0x11] 0 0 0xFF)).GuardAllows ∧
    ¬(guarded (code 0 [0x46, 0x06] 0 0 0xFF)).GuardAllows ∧
    (guarded (code 0 [0x46, 0x07] 0 0 0xFF)).GuardAllows :=
  ⟨by decide, by decide, by decide, by decide, by decide, by decide, by decide, by decide⟩
theorem witness_RunEndsByHltOrFault :
    (∃ t, step (at_ 0 [0x01]) = .next t ∧ t.status ≠ .running) ∧
    (∃ t, step State.reset = .next t ∧ t.status ≠ .running) :=
  ⟨⟨_, rfl, by decide⟩, ⟨_, rfl, by decide⟩⟩

end Sys2Proof.Tests
end

section
/-! SUPPORT. What an instruction may write besides `pc`, said once, and from it the frames of the single fields; then
the proofs of the statements about the state (spec/10_state.md). -/

namespace Sys2Proof.Machine

section Frames

variable {s t u : State} {i : Instr}

/-! ### Every effect is one write, then a write of `pc` -/

theorem State.branch_eq_jump (s : State) (ir : Byte) (taken : Bool) (r : RegIdx) :
    s.branch ir taken r = s.jump (if taken then s.reg r else s.pc + BitVec.ofNat 8 (lengthOfOpcode ir)) := by
  cases taken <;> rfl

/-- `Writes s i u`: `u` is `s` after all that the effect of `i` writes besides `pc`. -/
inductive Writes (s : State) : Instr → State → Prop where
  | halts : Writes s .hlt { s with status := .halted }
  | register {i : Instr} {a b : Byte} {r : RegIdx} (v : Byte)
      (hi : i = .ldi a b ∨ i = .mul a b ∨ i = .add a b ∨ i = .and a b) (ha : a.toNat = r.val) :
      Writes s i (s.setReg r v)
  | emits {a : Byte} {r : RegIdx} (ha : a.toNat = r.val) : Writes s (.prn a) (s.emit (s.reg r))
  | compares {a b : Byte} (x y : Byte) : Writes s (.cmp a b) { s with flags := compareFlags x y }
  | pushes {i : Instr} {a : Byte} (v : Byte) (hi : i = .push a ∨ i = .call a) : Writes s i (s.pushByte v)
  | pops {a : Byte} {d : RegIdx} (ha : a.toNat = d.val) : Writes s (.pop a) (s.popInto d).incSp
  | returns : Writes s .ret s.incSp
  | nothing {i : Instr} {a : Byte} (hi : i = .jmp a ∨ i = .jne a ∨ i = .jeq a) : Writes s i s

theorem Effect.writes (h : Effect i s t) : ∃ (u : State) (target : Byte), Writes s i u ∧ t = u.jump target := by
  cases i with
  | hlt => exact ⟨_, _, .halts, h⟩
  | ldi a b =>
    obtain ⟨r, ha, h⟩ := h
    exact ⟨_, _, .register b (a := a) (b := b) (by simp) ha, h⟩
  | prn a =>
    obtain ⟨r, ha, h⟩ := h
    exact ⟨_, _, .emits ha, h⟩
  | mul a b | add a b | and a b =>
    obtain ⟨ra, rb, ha, -, h⟩ := h
    exact ⟨_, _, .register _ (a := a) (b := b) (by simp) ha, h⟩
  | cmp a b =>
    obtain ⟨ra, rb, -, -, h⟩ := h
    exact ⟨_, _, .compares _ _, h⟩
  | push a | call a =>
    obtain ⟨r, -, -, h⟩ := h
    exact ⟨_, _, .pushes _ (a := a) (by simp), h⟩
  | pop a =>
    obtain ⟨d, ha, -, h⟩ := h
    exact ⟨_, _, .pops ha, h⟩
  | ret => exact ⟨_, _, .returns, h.2⟩
  | jmp a =>
    obtain ⟨r, -, h⟩ := h
    exact ⟨_, _, .nothing (a := a) (by simp), h⟩
  | jne a | jeq a =>
    obtain ⟨r, -, h⟩ := h
    exact ⟨_, _, .nothing (a := a) (by simp), h.trans (s.branch_eq_jump _ _ r)⟩

/-- Everything that executing an instruction can do, up to the value of `pc`. -/
theorem exec_writes (h : exec i s = .next t) :
    Raised i s t ∨ ∃ (u : State) (target : Byte), Writes s i u ∧ t = u.jump target :=
  (exec_next h).imp_right Effect.writes

/-! ### The frame of each field -/

theorem Writes.cfg (h : Writes s i u) : u.cfg = s.cfg := by cases h <;> rfl

theorem Writes.fault (h : Writes s i u) : u.fault = s.fault := by cases h <;> rfl

/-- Only HLT writes the status. -/
theorem Writes.status (h : Writes s i u) : u.status = s.status ∨ i = .hlt ∧ u.status = .halted := by
  cases h with
  | halts => exact .inr ⟨rfl, rfl⟩
  | register | emits | compares | pushes | pops | returns | nothing => exact .inl rfl

/-- Only CMP writes the flags, by a comparison. -/
theorem Writes.flags (h : Writes s i u) :
    u.flags = s.flags ∨ (∃ a b, i = .cmp a b) ∧ ∃ x y, u.flags = compareFlags x y := by
  cases h with
  | compares x y => exact .inr ⟨⟨_, _, rfl⟩, x, y, rfl⟩
  | halts | register | emits | pushes | pops | returns | nothing => exact .inl rfl

/-- Only PRN writes the output. -/
theorem Writes.out (h : Writes s i u) :
    u.out = s.out ∨ ∃ (a : Byte) (r : RegIdx), i = .prn a ∧ a.toNat = r.val ∧ u.out = s.out ++ [s.reg r] := by
  cases h with
  | emits ha => exact .inr ⟨_, _, rfl, ha, rfl⟩
  | halts | register | compares | pushes | pops | returns | nothing => exact .inl rfl

/-- Only a push writes memory. -/
theorem Writes.mem_wf (h : Writes s i u) (hs : s.mem.wf = true) : u.mem.wf = true := by
  cases h with
  | pushes v => exact State.pushByte_mem_wf hs v
  | halts | register | emits | compares | pops | returns | nothing => exact hs

theorem exec_cfg (h : exec i s = .next t) : t.cfg = s.cfg := by
  obtain ⟨_, _, rfl, -⟩ | ⟨u, _, hw, rfl⟩ := exec_writes h
  · rfl
  · exact hw.cfg

theorem exec_status (h : exec i s = .next t) :
    (t.status = s.status ∧ t.fault = s.fault) ∨ (i = .hlt ∧ t.status = .halted ∧ t.fault = s.fault) ∨
      (t.status = .faulted ∧ t.fault.isSome = true ∧ i ≠ .hlt) := by
  obtain ⟨_, _, rfl, hi, -⟩ | ⟨u, _, hw, rfl⟩ := exec_writes h
  · exact .inr (.inr ⟨rfl, rfl, hi⟩)
  · obtain hst | ⟨hi, hst⟩ := hw.status
    · exact .inl ⟨hst, hw.fault⟩
    · exact .inr (.inl ⟨hi, hst, hw.fault⟩)

theorem exec_flags (h : exec i s = .next t) :
    t.flags = s.flags ∨ (∃ a b, i = .cmp a b) ∧ ∃ x y, t.flags = compareFlags x y := by
  obtain ⟨_, _, rfl, -⟩ | ⟨u, _, hw, rfl⟩ := exec_writes h
  · exact .inl rfl
  · exact hw.flags

theorem exec_out (h : exec i s = .next t) :
    t.out = s.out ∨ ∃ (a : Byte) (r : RegIdx), i = .prn a ∧ a.toNat = r.val ∧ t.out = s.out ++ [s.reg r] := by
  obtain ⟨_, _, rfl, -⟩ | ⟨u, _, hw, rfl⟩ := exec_writes h
  · exact .inl rfl
  · exact hw.out

theorem exec_mem_wf (h : exec i s = .next t) (hs : s.mem.wf = true) : t.mem.wf = true := by
  obtain ⟨_, _, rfl, -⟩ | ⟨u, _, hw, rfl⟩ := exec_writes h
  · exact hs
  · exact hw.mem_wf hs

/-- An effect never ends in FAULTED: only a fault does. -/
theorem Effect.status_ne_faulted (h : Effect i s t) (hs : s.status ≠ .faulted) : t.status ≠ .faulted := by
  obtain ⟨u, _, hw, rfl⟩ := h.writes
  obtain hst | ⟨-, hst⟩ := hw.status
  · simpa [hst] using hs
  · simp [hst]

/-! ### The frames of a step -/

/-- A step is an instruction's execution or UnknownInstruction, so what holds after both holds after it. -/
theorem step_elim {P : State → Prop} (h : step s = .next t) (hraise : P s.raiseUnknown)
    (hexec : ∀ i, exec i s = .next t → P t) : P t := by
  obtain ⟨-, ⟨i, _, -, hi⟩ | ⟨-, rfl⟩⟩ := step_next h
  · exact hexec i hi
  · exact hraise

theorem step_cfg (h : step s = .next t) : t.cfg = s.cfg :=
  step_elim (P := fun t => t.cfg = s.cfg) h rfl fun _ => exec_cfg

theorem step_mem_wf (h : step s = .next t) (hs : s.mem.wf = true) : t.mem.wf = true :=
  step_elim (P := fun t => t.mem.wf = true) h hs fun _ hi => exec_mem_wf hi hs

/-- A step leaves the flags alone or sets exactly one (spec/10_state.md R22). -/
theorem step_flags (h : step s = .next t) : t.flags = s.flags ∨ t.flags.oneSet = true := by
  refine step_elim (P := fun t => t.flags = s.flags ∨ t.flags.oneSet = true) h (.inl rfl) fun i hi => ?_
  obtain hf | ⟨-, x, y, hf⟩ := exec_flags hi
  · exact .inl hf
  · exact .inr (hf ▸ compareFlags_oneSet x y)

theorem step_out_prefix (h : step s = .next t) : s.out <+: t.out := by
  refine step_elim (P := fun t => s.out <+: t.out) h List.prefix_rfl fun i hi => ?_
  obtain ho | ⟨_, r, -, -, ho⟩ := exec_out hi
  · exact ho ▸ List.prefix_rfl
  · exact ho ▸ List.prefix_append _ _

/-- The record is valid exactly when FAULTED, and a step keeps it so (spec/10_state.md R25). -/
theorem step_faulted_iff (h : step s = .next t) (hs : s.status = .faulted ↔ s.fault.isSome = true) :
    t.status = .faulted ↔ t.fault.isSome = true := by
  have hrun : s.status = .running := (step_next h).1
  have hnone : s.fault.isSome = false := by simpa [hrun] using hs
  refine step_elim (P := fun t => t.status = .faulted ↔ t.fault.isSome = true) h
    (iff_of_true rfl rfl) fun i hi => ?_
  obtain ⟨hst, hft⟩ | ⟨-, hst, hft⟩ | ⟨hst, hft, -⟩ := exec_status hi
  · rw [hst, hft]
    exact hs
  · simp [hst, hft, hnone]
  · simp [hst, hft]

theorem Flags.reachable_of_oneSet {f : Flags} (h : f.oneSet = true) : f.reachable = true := by
  simp [Flags.reachable, h]

theorem step_flags_reachable (h : step s = .next t) (hs : s.flags.reachable = true) : t.flags.reachable = true := by
  obtain hf | hf := step_flags h
  · exact hf ▸ hs
  · exact Flags.reachable_of_oneSet hf

/-! ### CMP -/

/-- The opcode byte of CMP decodes to CMP, whatever AND_OPCODE is. -/
theorem fetchBytes_decode_cmp (hop : s.mem.read s.pc = 0xA7#8) :
    decode s.cfg s.fetchBytes = .ok (.cmp (s.mem.read (s.pc + 1)) (s.mem.read (s.pc + 2)), []) := by
  rw [State.fetchBytes, hop]
  rfl

/-- A step at the opcode of CMP raises a fault or sets exactly one flag. -/
theorem step_cmp (hop : s.mem.read s.pc = 0xA7#8) (h : step s = .next t) :
    t.status = .faulted ∨ t.flags.oneSet = true := by
  obtain ⟨-, ⟨i, rest, hd, hi⟩ | ⟨⟨e, hd⟩, -⟩⟩ := step_next h
  · cases (fetchBytes_decode_cmp hop).symm.trans hd
    obtain ⟨_, _, rfl, -⟩ | ⟨ra, rb, -, -, rfl⟩ := exec_next hi
    · exact .inl rfl
    · exact .inr (compareFlags_oneSet _ _)
  · cases (fetchBytes_decode_cmp hop).symm.trans hd

/-! ### Registers -/

theorem RegIdx.ne_of_toNat_ne {a : Byte} {r j : RegIdx} (ha : a.toNat = r.val) (h : a.toNat ≠ j.val) : j ≠ r := by
  rintro rfl
  exact h ha

theorem State.pushByte_reg_other (s : State) {j : RegIdx} (h : j ≠ spIdx) (v : Byte) :
    (s.pushByte v).reg j = s.reg j := s.decSp_reg_other h

theorem State.popInto_incSp_reg_other (s : State) {d j : RegIdx} (hd : j ≠ d) (h : j ≠ spIdx) :
    (s.popInto d).incSp.reg j = s.reg j :=
  ((s.popInto d).incSp_reg_other h).trans (s.reg_setReg_other hd _)

@[simp] theorem State.pushByte_pc (s : State) (v : Byte) : (s.pushByte v).pc = s.pc := rfl
@[simp] theorem State.popInto_incSp_pc (s : State) (d : RegIdx) : (s.popInto d).incSp.pc = s.pc := rfl

/-! ### Exchanging the flags -/

/-- The state with other flags. -/
def State.withFlags (s : State) (f : Flags) : State := { s with flags := f }

/-- Whenever `x` answers a state, `y` answers one that differs in nothing but the flags. -/
def SameButFlags (x y : Result) : Prop :=
  ∀ t, x = .next t → ∃ u, y = .next u ∧ u.withFlags t.flags = t

theorem SameButFlags.next (h : u.withFlags t.flags = t) : SameButFlags (.next t) (.next u) := by
  rintro _ ⟨⟩
  exact ⟨u, rfl, h⟩

theorem SameButFlags.ite {x x' y y' : Result} (c : Bool) (h : SameButFlags x y) (h' : SameButFlags x' y') :
    SameButFlags (if c then x else x') (if c then y else y') := by
  cases c with
  | true => exact h
  | false => exact h'

variable {f : Flags} {ir op op1 op2 v : Byte}

theorem SameButFlags.withReg {k k' : RegIdx → Result} (h : ∀ r, SameButFlags (k r) (k' r)) :
    SameButFlags (withReg ir op s k) (withReg ir op (s.withFlags f) k') := by
  cases hr : regIdx op with
  | some r =>
    rw [withReg_legal hr, withReg_legal hr]
    exact h r
  | none =>
    rw [withReg_illegal hr, withReg_illegal hr]
    exact .next rfl

theorem SameButFlags.withPush {k k' : State → Result} (h : ∀ w : State, SameButFlags (k w) (k' (w.withFlags f))) :
    SameButFlags (withPush ir v s k) (withPush ir v (s.withFlags f) k') :=
  .ite s.pushOverflows (.next rfl) (h _)

theorem SameButFlags.withPop {k k' : Byte → State → Result}
    (h : ∀ (b : Byte) (w : State), SameButFlags (k b w) (k' b (w.withFlags f))) :
    SameButFlags (withPop ir s k) (withPop ir (s.withFlags f) k') :=
  .ite s.popUnderflows (.next rfl) (h _ _)

theorem SameButFlags.aluInstr (aop : AluOp) :
    SameButFlags (aluInstr ir aop op1 op2 s) (aluInstr ir aop op1 op2 (s.withFlags f)) := by
  refine .withReg fun ra => .withReg fun rb => .next ?_
  cases aop <;> rfl

theorem SameButFlags.branch (taken : Bool) (r : RegIdx) :
    SameButFlags (.next (s.branch ir taken r)) (.next ((s.withFlags f).branch ir taken r)) := by
  rw [State.branch_eq_jump, State.branch_eq_jump]
  exact .next rfl

/-- Exchanging the flags exchanges nothing else of the next state, if a conditional jump finds its E as before. -/
theorem exec_sameButFlags (i : Instr) (s : State) (f : Flags)
    (hE : (∃ a, i = .jeq a ∨ i = .jne a) → f.E = s.flags.E) :
    SameButFlags (exec i s) (exec i (s.withFlags f)) := by
  cases i with
  | hlt => exact .next rfl
  | ldi a imm => exact .withReg fun r => .next rfl
  | prn a => exact .withReg fun r => .next rfl
  | mul a b => exact .aluInstr .mul
  | add a b => exact .aluInstr .add
  | cmp a b => exact .aluInstr .cmp
  | and a b => exact .aluInstr .and
  | push a => exact .withReg fun r => .withPush fun w => .next rfl
  | pop a => exact .withReg fun d => .ite (s.popInto d).popUnderflows (.next rfl) (.next rfl)
  | call a => exact .withReg fun r => .withPush fun w => .next rfl
  | ret =>
    rw [exec, exec, execRet, execRet]
    exact .withPop fun b w => .next rfl
  | jmp a => exact .withReg fun r => .next rfl
  | jne a =>
    have hne : (s.withFlags f).flags.E = s.flags.E := hE ⟨a, .inr rfl⟩
    refine .withReg fun r => ?_
    rw [hne]
    exact .branch _ r
  | jeq a =>
    have heq : (s.withFlags f).flags.E = s.flags.E := hE ⟨a, .inl rfl⟩
    refine .withReg fun r => ?_
    rw [heq]
    exact .branch _ r

theorem regIdx_of_lt {a : Byte} (h : a.toNat < 8) : regIdx a = some ⟨a.toNat, h⟩ := regIdx_eq_some.mpr rfl

theorem exec_cmp_legal {a b : Byte} {ra rb : RegIdx} (ha : regIdx a = some ra) (hb : regIdx b = some rb) :
    exec (.cmp a b) s = .next ((s.withFlags (compareFlags (s.reg ra) (s.reg rb))).defaultAdvance (opcode s.cfg .cmp)) :=
  withRegs_legal ha hb

end Frames

section CanonicalMemory

variable {lo a : Nat} {m n : Memory}

theorem Memory.le_of_readCell_ne (hm : m.wfFrom lo = true) (h : m.readCell a ≠ Config.memReset) : lo ≤ a := by
  by_contra hlt
  exact h (Memory.readCell_of_lt hm (by omega))

theorem Memory.readCell_cons_same (v : Byte) : Memory.readCell a ((a, v) :: m) = v := by simp [Memory.readCell]

/-- The first listed cell does not read as the reset value. -/
theorem Memory.readCell_head_ne {v : Byte} (hm : Memory.wfFrom lo ((a, v) :: m) = true) :
    Memory.readCell a ((a, v) :: m) ≠ Config.memReset := by
  obtain ⟨-, -, hv, -⟩ := Memory.wfFrom_cons.mp hm
  rwa [Memory.readCell_cons_same]

theorem Memory.wfFrom_head {v : Byte} (hm : Memory.wfFrom lo ((a, v) :: m) = true) :
    Memory.wfFrom a ((a, v) :: m) = true := by
  obtain ⟨-, h⟩ := Memory.wfFrom_cons.mp hm
  exact Memory.wfFrom_cons.mpr ⟨le_rfl, h⟩

/-- Canonical cells that read alike below the size of memory are equal lists. -/
theorem Memory.eq_of_readCell_eq (hm : m.wfFrom lo = true) (hn : n.wfFrom lo = true)
    (h : ∀ k < Config.memSize, Memory.readCell k m = Memory.readCell k n) : m = n := by
  induction m generalizing n lo with
  | nil =>
    cases n with
    | nil => rfl
    | cons c n =>
      obtain ⟨-, hc, -⟩ := Memory.wfFrom_cons.mp hn
      exact absurd (h c.1 hc).symm (Memory.readCell_head_ne hn)
  | cons c m ih =>
    obtain ⟨a, v⟩ := c
    obtain ⟨-, ha, -, hm'⟩ := Memory.wfFrom_cons.mp hm
    cases n with
    | nil => exact absurd (h a ha) (Memory.readCell_head_ne hm)
    | cons d n =>
      obtain ⟨b, w⟩ := d
      obtain ⟨-, hb, -, hn'⟩ := Memory.wfFrom_cons.mp hn
      have hba : b ≤ a := Memory.le_of_readCell_ne (Memory.wfFrom_head hn) (h a ha ▸ Memory.readCell_head_ne hm)
      have hab : a ≤ b := Memory.le_of_readCell_ne (Memory.wfFrom_head hm) (h b hb ▸ Memory.readCell_head_ne hn)
      obtain rfl : a = b := le_antisymm hab hba
      obtain rfl : v = w := by simpa only [Memory.readCell_cons_same] using h a ha
      have hrest : ∀ k < Config.memSize, Memory.readCell k m = Memory.readCell k n := by
        intro k hk
        by_cases hka : k = a
        · rw [Memory.readCell_of_lt hm' (by omega), Memory.readCell_of_lt hn' (by omega)]
        · simpa [Memory.readCell, hka] using h k hk
      rw [ih hm' hn' hrest]

end CanonicalMemory

/-- Settles O44: each of the four parts is kept by itself. -/
theorem stepKeepsInvariant : Obligations.StepKeepsInvariant := by
  intro s t ⟨hmem, hfault, hflags, hcfg⟩ h
  exact ⟨step_mem_wf h hmem, step_faulted_iff h hfault, step_flags_reachable h hflags, (step_cfg h).symm ▸ hcfg⟩

/-- Settles O34: a fault leaves the output, and PRN alone writes it. -/
theorem outputFrame : Obligations.OutputFrame := fun _ _ _ => exec_out

/-- Settles O35: HLT alone writes the status, and a fault the status and the record. -/
theorem statusFrame : Obligations.StatusFrame := fun _ _ _ h => ⟨exec_cfg h, exec_status h⟩

/-- Settles O46: the only write of the flags is a comparison's. -/
theorem oneFlagStaysSet : Obligations.OneFlagStaysSet := by
  refine ⟨fun s t hs h => ?_, fun s t hop h hrun => ?_⟩
  · obtain hf | hf := step_flags h
    · exact hf ▸ hs
    · exact hf
  · exact (step_cmp hop h).resolve_left (by simp [hrun])

/-- Settles O47, by induction on the number of steps. -/
theorem outputOnlyGrows : Obligations.OutputOnlyGrows := by
  intro k
  induction k with
  | zero =>
    intro s t h
    cases h
    exact List.prefix_rfl
  | succ k ih =>
    intro s u h
    obtain ⟨t, hst, htu⟩ := run_succ_eq_next h
    exact (step_out_prefix hst).trans (ih t u htu)

/-- Settles O9: a run of one step or more begins with a step, and only RUNNING has one. -/
theorem terminalStatesAreFinal : Obligations.TerminalStatesAreFinal := by
  refine fun s => ⟨fun h => ?_, fun h => ?_, fun hs k t h => ?_⟩
  · rw [step, h]
  · rw [step, h]
  · obtain ⟨u, hu, -⟩ := run_succ_eq_next h
    exact hs (step_next hu).1

/-- Settles O30: the case split over the instructions, with the length of each. -/
theorem pcUpdate : Obligations.PcUpdate := by
  intro i s t hrun hlegal h
  obtain ⟨_, _, rfl, -⟩ | he := exec_next h
  · exact .inl ⟨rfl, rfl⟩
  refine .inr ⟨he.status_ne_faulted (by simp [hrun]), ?_⟩
  cases i with
  | hlt =>
    obtain rfl := he
    simp
  | ldi a _ | prn a =>
    obtain ⟨r, -, rfl⟩ := he
    simp
  | mul a b | add a b | cmp a b =>
    obtain ⟨ra, rb, -, -, rfl⟩ := he
    simp
  | and a b =>
    obtain ⟨ra, rb, -, -, rfl⟩ := he
    simp [lengthOfOpcode_and hlegal]
  | push a | pop a =>
    obtain ⟨r, -, -, rfl⟩ := he
    simp
  | call a =>
    obtain ⟨r, ha, -, rfl⟩ := he
    exact ⟨r, ha, rfl⟩
  | ret =>
    obtain ⟨-, rfl⟩ := he
    rfl
  | jmp a =>
    obtain ⟨r, ha, rfl⟩ := he
    exact ⟨r, ha, rfl⟩
  | jne a | jeq a =>
    obtain ⟨r, ha, rfl⟩ := he
    exact ⟨r, ha, by cases s.flags.E <;> simp [State.branch_eq_jump]⟩

/-- Settles O31: a register other than those the instruction writes is read through the write. -/
theorem registerFrame : Obligations.RegisterFrame := by
  intro i s t j h hj
  obtain ⟨_, _, rfl, -⟩ | ⟨u, _, hw, rfl⟩ := exec_writes h
  · rfl
  cases hw with
  | halts | emits | compares | nothing => rfl
  | register v hi ha =>
    obtain rfl | rfl | rfl | rfl := hi
    all_goals exact s.reg_setReg_other (RegIdx.ne_of_toNat_ne ha hj) v
  | pushes v hi =>
    obtain rfl | rfl := hi
    all_goals exact s.pushByte_reg_other hj v
  | pops ha =>
    obtain ⟨hd, hsp⟩ := hj
    exact s.popInto_incSp_reg_other (RegIdx.ne_of_toNat_ne ha hd) hsp
  | returns => exact s.incSp_reg_other hj

/-- Settles O33: the frame of the flags, CMP's result, and the noninterference of the flags. -/
theorem flagsWrittenByCmpReadByJumps : Obligations.FlagsWrittenByCmpReadByJumps := by
  refine ⟨fun i s t h hcmp => ?_, fun s f a b ha hb => ?_, fun i s t f h hE => exec_sameButFlags i s f hE t h⟩
  · obtain hf | ⟨⟨a, b, hi⟩, -⟩ := exec_flags h
    · exact hf
    · exact absurd hi (hcmp a b)
  · have hra := regIdx_of_lt ha
    have hrb := regIdx_of_lt hb
    exact ⟨_, exec_cmp_legal hra hrb, exec_cmp_legal hra hrb⟩

/-- Settles O40: canonical lists agree cell by cell, from the lowest listed address. -/
theorem canonicalMemoryIsUnique : Obligations.CanonicalMemoryIsUnique := by
  refine fun m n hm hn h => Memory.eq_of_readCell_eq hm hn fun k hk => ?_
  have hmod : k % 256 = k := Nat.mod_eq_of_lt hk
  simpa [Memory.read, hmod] using h (BitVec.ofNat 8 k)

end Sys2Proof.Machine
end

section
/-! SUPPORT. What a sequence of writes leaves to read, which write of memory an instruction can make, and steps at the
opcodes of PUSH and HLT; then the proofs of the statements about memory (spec/20_memory.md). -/

namespace Sys2Proof.Machine

section MemoryAccess

variable {s t u : State} {i : Instr} {a : Byte} {r : RegIdx} {rest : List Byte} {m : Memory}

/-! ### Sequences of writes -/

theorem Memory.read_write (hm : m.wf = true) (addr addr' v : Byte) :
    (m.write addr v).read addr' = if addr = addr' then v else m.read addr' := by
  split_ifs with h
  · exact h ▸ Memory.read_write_same hm addr v
  · exact Memory.read_write_other (Ne.symm h) v

/-- The last write to the address decides; without one the address reads as before the sequence. -/
theorem Memory.read_foldl_write (hm : m.wf = true) (writes : List (Byte × Byte)) (addr : Byte) :
    Memory.read (writes.foldl (fun m w => m.write w.1 w.2) m) addr =
      ((writes.reverse.find? fun w => w.1 == addr).map Prod.snd).getD (m.read addr) := by
  induction writes generalizing m with
  | nil => rfl
  | cons w ws ih =>
    rw [List.foldl_cons, ih (Memory.wf_write hm w.1 w.2), Memory.read_write hm, List.reverse_cons, List.find?_append]
    cases ws.reverse.find? fun w => w.1 == addr with
    | some later => rfl
    | none => by_cases h : w.1 = addr <;> simp [h]

/-! ### The frame of memory -/

/-- Only PUSH and CALL write memory: one byte, at the decremented SP. -/
theorem Writes.mem (h : Writes s i u) :
    u.mem = s.mem ∨ ∃ a v, (i = .push a ∨ i = .call a) ∧ u.mem = s.mem.write s.decSp.sp v := by
  cases h with
  | pushes v hi => exact .inr ⟨_, v, hi, rfl⟩
  | halts | register | emits | compares | pops | returns | nothing => exact .inl rfl

theorem exec_mem (h : exec i s = .next t) :
    t.mem = s.mem ∨ ∃ a v, (i = .push a ∨ i = .call a) ∧ t.mem = s.mem.write s.decSp.sp v := by
  obtain ⟨_, _, rfl, -⟩ | ⟨u, _, hw, rfl⟩ := exec_writes h
  · exact .inl rfl
  · exact hw.mem

/-! ### Steps at PUSH and at HLT -/

theorem step_of_decode (hrun : s.status = .running) (hd : decode s.cfg s.fetchBytes = .ok (i, rest)) :
    step s = exec i s := by
  rw [step, hrun, State.fetch, hd]

/-- The opcode byte of HLT decodes to HLT, whatever AND_OPCODE is. -/
theorem fetchBytes_decode_hlt (hop : s.mem.read s.pc = 0x01#8) :
    decode s.cfg s.fetchBytes = .ok (.hlt, [s.mem.read (s.pc + 1), s.mem.read (s.pc + 2)]) := by
  rw [State.fetchBytes, hop]
  rfl

/-- The opcode byte of PUSH decodes to PUSH, whatever AND_OPCODE is. -/
theorem fetchBytes_decode_push (hop : s.mem.read s.pc = 0x45#8) :
    decode s.cfg s.fetchBytes = .ok (.push (s.mem.read (s.pc + 1)), [s.mem.read (s.pc + 2)]) := by
  rw [State.fetchBytes, hop]
  rfl

theorem State.pushOverflows_eq_false :
    s.pushOverflows = false ↔ ¬(s.cfg.stackGuard = true ∧ s.sp = 0x00#8) := by
  simp [State.pushOverflows]

theorem exec_push_legal (ha : regIdx a = some r) (ho : s.pushOverflows = false) :
    exec (.push a) s = .next ((s.pushByte (s.decSp.reg r)).defaultAdvance (opcode s.cfg .push)) := by
  rw [exec, execPush, withReg_legal ha, withPush, ho]
  rfl

theorem step_hlt (hrun : s.status = .running) (hop : s.mem.read s.pc = 0x01#8) :
    step s = .next ({ s with status := .halted }.defaultAdvance (opcode s.cfg .hlt)) :=
  step_of_decode hrun (fetchBytes_decode_hlt hop)

theorem step_push (hrun : s.status = .running) (hop : s.mem.read s.pc = 0x45#8)
    (ha : regIdx (s.mem.read (s.pc + 1)) = some r) (ho : s.pushOverflows = false) :
    step s = .next ((s.pushByte (s.decSp.reg r)).defaultAdvance (opcode s.cfg .push)) :=
  (step_of_decode hrun (fetchBytes_decode_push hop)).trans (exec_push_legal ha ho)

theorem State.pushByte_read_same (h : s.mem.wf = true) (v : Byte) : (s.pushByte v).mem.read (s.sp - 1) = v := by
  rw [State.pushByte_eq]
  exact Memory.read_write_same h _ v

end MemoryAccess

/-- Settles O29: the byte that PUSH stores stands at the `pc` it leaves, where the fetch reads HLT's opcode. -/
theorem fetchSeesPushedOpcode : Obligations.FetchSeesPushedOpcode := by
  intro s a r hrun hwf ha hr hop hreg hv hsp hguard
  have hpush := step_push hrun hop (hreg ▸ regIdx_eq_some.mpr ha) (State.pushOverflows_eq_false.mpr hguard)
  have hstored : (s.pushByte (s.decSp.reg r)).mem.read (s.pc + 2) = 0x01#8 := by
    rw [s.decSp_reg_other hr, hv, ← hsp]
    exact State.pushByte_read_same hwf _
  have hhlt := step_hlt (s := (s.pushByte (s.decSp.reg r)).defaultAdvance (opcode s.cfg .push)) hrun
    (by simpa using hstored)
  exact ⟨_, (run_succ_of_next 1 hpush).trans (run_succ_of_next 0 hhlt), rfl, rfl⟩

/-- Settles O32: a write of memory is the store of PUSH or CALL, read at another address. -/
theorem memoryFrame : Obligations.MemoryFrame := by
  intro i s t addr h haddr
  obtain hm | ⟨a, v, hi, hm⟩ := exec_mem h
  · rw [hm]
  · rw [hm]
    obtain rfl | rfl := hi
    all_goals exact Memory.read_write_other haddr v

/-- Settles O39: reset memory is canonical and reads 0x00 everywhere. -/
theorem readReturnsMostRecentWrite : Obligations.ReadReturnsMostRecentWrite :=
  Memory.read_foldl_write (State.resetWith_mem_wf Config.default)

end Sys2Proof.Machine
end

section
/-! SUPPORT. The decoder against the encoder, said once as an equivalence, and what the fetch finds in memory; then the
proofs of the statements about encoding and the step (spec/30_encoding.md). -/

namespace Sys2Proof

section Codec

variable {c : Config} {ir : Byte} {m : Mnemonic} {i : Instr} {bytes rest : List Byte} {e : DecodeError}

/-! ### The opcode map in both directions -/

/-- The decoder's rows and the encoder's table, written apart, agree. -/
theorem opcode_of_mem_fixedRows (h : (ir, m) ∈ fixedRows) : ir = opcode c m := by
  have hrows : ∀ row ∈ fixedRows, row.1 = opcode c row.2 := by simp [fixedRows, opcode]
  exact hrows _ h

theorem eq_opcode_of_decodeOpcode (h : decodeOpcode c ir = some m) : ir = opcode c m := by
  obtain hrow | ⟨-, rfl, rfl⟩ := decodeOpcode_eq_some h
  · exact opcode_of_mem_fixedRows hrow
  · rfl

/-- A legal AND_OPCODE is no row of the map, so the dispatch comes to AND. -/
theorem decodeOpcode_andOpcode (hc : c.legal = true) : decodeOpcode c c.andOpcode = some .and := by
  cases hd : decodeOpcode c c.andOpcode with
  | none => exact absurd rfl (decodeOpcode_eq_none.mp hd).2
  | some m =>
    obtain hrow | ⟨-, -, rfl⟩ := decodeOpcode_eq_some hd
    · exact absurd (List.mem_map_of_mem hrow) (legal_notMem hc)
    · rfl

theorem decodeOpcode_opcode (hc : c.legal = true) (m : Mnemonic) : decodeOpcode c (opcode c m) = some m := by
  cases m with
  | and => exact decodeOpcode_andOpcode hc
  | hlt | ldi | prn | mul | add | cmp | push | pop | call | ret | jmp | jne | jeq => rfl

/-- The rows in the table's order and the opcodes in the order of the statements. -/
theorem fixedOpcodes_perm : fixedOpcodes.Perm
    [0x01#8, 0x11#8, 0x45#8, 0x46#8, 0x47#8, 0x50#8, 0x54#8, 0x55#8, 0x56#8, 0x82#8, 0xA0#8, 0xA2#8, 0xA7#8] := by
  decide

/-! ### The operand bytes -/

theorem oneOperand_eq_ok {mk : Byte → Instr} (h : oneOperand mk bytes = .ok (i, rest)) :
    ∃ a, i = mk a ∧ bytes = a :: rest := by
  cases bytes with
  | nil => cases h
  | cons a bs =>
    cases h
    exact ⟨a, rfl, rfl⟩

theorem twoOperands_eq_ok {mk : Byte → Byte → Instr} (h : twoOperands mk bytes = .ok (i, rest)) :
    ∃ a b, i = mk a b ∧ bytes = a :: b :: rest := by
  match bytes, h with
  | a :: b :: bs, h =>
    cases h
    exact ⟨a, b, rfl, rfl⟩

theorem oneOperand_eq_error {mk : Byte → Instr} (h : oneOperand mk bytes = .error e) : e = .truncated := by
  cases bytes with
  | nil => exact (Except.error.inj h).symm
  | cons a bs => cases h

theorem twoOperands_eq_error {mk : Byte → Byte → Instr} (h : twoOperands mk bytes = .error e) : e = .truncated := by
  match bytes, h with
  | [], h | [_], h => exact (Except.error.inj h).symm

theorem decodeOperands_operandBytes (i : Instr) (rest : List Byte) :
    decodeOperands i.mnemonic (i.operandBytes ++ rest) = .ok (i, rest) := by
  cases i <;> rfl

theorem decodeOperands_eq_ok (h : decodeOperands m bytes = .ok (i, rest)) :
    m = i.mnemonic ∧ bytes = i.operandBytes ++ rest := by
  cases m with
  | hlt | ret =>
    cases h
    exact ⟨rfl, rfl⟩
  | prn | push | pop | call | jmp | jne | jeq =>
    obtain ⟨a, rfl, rfl⟩ := oneOperand_eq_ok h
    exact ⟨rfl, rfl⟩
  | ldi | mul | add | cmp | and =>
    obtain ⟨a, b, rfl, rfl⟩ := twoOperands_eq_ok h
    exact ⟨rfl, rfl⟩

/-- Once the opcode is known, only a list that ends too early is refused. -/
theorem decodeOperands_eq_error (h : decodeOperands m bytes = .error e) : e = .truncated := by
  cases m with
  | hlt | ret => cases h
  | prn | push | pop | call | jmp | jne | jeq => exact oneOperand_eq_error h
  | ldi | mul | add | cmp | and => exact twoOperands_eq_error h

theorem Instr.operandBytes_length_le (i : Instr) : i.operandBytes.length ≤ 2 := by
  cases i <;> simp [Instr.operandBytes]

theorem encode_length_le (c : Config) (i : Instr) : (encode c i).length ≤ 3 :=
  Nat.succ_le_succ i.operandBytes_length_le

/-- The laws of the single instructions, gathered. -/
theorem operandsFill : (i : Instr) → Laws.OperandsFill.Statement i
  | .hlt => Laws.OperandsFill.hlt
  | .ldi a b => Laws.OperandsFill.ldi a b
  | .prn a => Laws.OperandsFill.prn a
  | .mul a b => Laws.OperandsFill.mul a b
  | .add a b => Laws.OperandsFill.add a b
  | .cmp a b => Laws.OperandsFill.cmp a b
  | .and a b => Laws.OperandsFill.and a b
  | .push a => Laws.OperandsFill.push a
  | .pop a => Laws.OperandsFill.pop a
  | .call a => Laws.OperandsFill.call a
  | .ret => Laws.OperandsFill.ret
  | .jmp a => Laws.OperandsFill.jmp a
  | .jne a => Laws.OperandsFill.jne a
  | .jeq a => Laws.OperandsFill.jeq a

theorem Instr.operandBytes_length (hc : c.legal = true) (i : Instr) :
    i.operandBytes.length = (opcode c i.mnemonic).toNat / 64 := by
  rw [(operandsFill i c hc).1, operandCount, Nat.shiftRight_eq_div_pow]

/-! ### The decoder -/

/-- What the decoder accepts: an opcode byte of the instruction's mnemonic, then its operand bytes. -/
theorem decode_cons_eq_ok :
    decode c (ir :: bytes) = .ok (i, rest) ↔ decodeOpcode c ir = some i.mnemonic ∧ bytes = i.operandBytes ++ rest := by
  rw [decode]
  constructor
  · intro h
    cases hd : decodeOpcode c ir with
    | none => simp [hd] at h
    | some m =>
      rw [hd] at h
      obtain ⟨rfl, hbytes⟩ := decodeOperands_eq_ok h
      exact ⟨rfl, hbytes⟩
  · rintro ⟨hd, rfl⟩
    rw [hd]
    exact decodeOperands_operandBytes i rest

theorem decode_cons_of_unknown (hd : decodeOpcode c ir = none) :
    decode c (ir :: bytes) = .error (.unknownInstruction ir) := by
  rw [decode, hd]

theorem decode_cons_eq_unknown :
    decode c (ir :: bytes) = .error (.unknownInstruction ir) ↔ decodeOpcode c ir = none := by
  refine ⟨fun h => ?_, decode_cons_of_unknown⟩
  cases hd : decodeOpcode c ir with
  | none => rfl
  | some m =>
    rw [decode, hd] at h
    cases decodeOperands_eq_error h

theorem decode_encode_append (hc : c.legal = true) (i : Instr) (rest : List Byte) :
    decode c (encode c i ++ rest) = .ok (i, rest) :=
  decode_cons_eq_ok.mpr ⟨decodeOpcode_opcode hc i.mnemonic, rfl⟩

theorem eq_encode_append_of_decode (h : decode c bytes = .ok (i, rest)) : bytes = encode c i ++ rest := by
  cases bytes with
  | nil => cases h
  | cons ir bs =>
    obtain ⟨hd, rfl⟩ := decode_cons_eq_ok.mp h
    obtain rfl := eq_opcode_of_decodeOpcode hd
    rfl

end Codec

/-- Settles O1: the opcode dispatches to the mnemonic, and its format reads the operand bytes back. -/
theorem decodeOfEncode : Obligations.DecodeOfEncode := fun _ i rest hc => decode_encode_append hc i rest

/-- Settles O2: the dispatch answers a mnemonic for its own opcode only, and a format reads its own operand bytes. -/
theorem encodeOfDecode : Obligations.EncodeOfDecode := fun _ _ _ _ => eq_encode_append_of_decode

/-- Settles O3: the operands' only refusal is `truncated`, so the name is that of a failed dispatch. -/
theorem unknownOpcodesRefused : Obligations.UnknownOpcodesRefused := fun _ ir bytes => by
  rw [← fixedOpcodes_perm.mem_iff, ← decodeOpcode_eq_none]
  exact decode_cons_eq_unknown

/-- Settles O5: the bytes read are an encoding, and an instruction has as many operand bytes as its opcode says. -/
theorem lengthFromTopTwoBits : Obligations.LengthFromTopTwoBits := by
  refine fun c hc => ⟨fun ir bytes i rest h => ?_, fun i => ?_⟩
  · obtain ⟨hd, rfl⟩ := decode_cons_eq_ok.mp h
    obtain rfl := eq_opcode_of_decodeOpcode hd
    have hle := i.operandBytes_length_le
    rw [← i.operandBytes_length hc]
    refine ⟨?_, by simp, by simp⟩
    simp only [List.mem_cons, List.not_mem_nil, or_false]
    omega
  · have hlen := i.operandBytes_length hc
    exact ⟨_, _, rfl, hlen, congrArg Nat.succ hlen⟩

/-- Settles O4, by running the decoder on the nine words. -/
theorem decodesTableWords : Obligations.DecodesTableWords := by
  unfold Obligations.DecodesTableWords
  decide

end Sys2Proof

namespace Sys2Proof.Machine

section Fetch

variable {s : State} {i : Instr} {bytes : List Byte}

theorem State.fetchBytes_getElem? {k : Nat} (hk : k < 3) :
    s.fetchBytes[k]? = some (s.mem.read (s.pc + BitVec.ofNat 8 k)) := by
  match k with
  | 0 => simp [State.fetchBytes]
  | 1 | 2 => rfl

/-- Bytes that lie in memory from `pc` upward, no more than the longest instruction has, are what the fetch begins
with. -/
theorem State.isPrefix_fetchBytes (hlen : bytes.length ≤ 3)
    (h : ∀ (k : Nat) (b : Byte), bytes[k]? = some b → s.mem.read (s.pc + BitVec.ofNat 8 k) = b) :
    bytes <+: s.fetchBytes := by
  refine List.prefix_iff_getElem?.mpr fun k hk => ?_
  rw [State.fetchBytes_getElem? (by omega), h k _ (List.getElem?_eq_getElem hk)]

theorem step_of_decode_error {e : DecodeError} (hrun : s.status = .running)
    (hd : decode s.cfg s.fetchBytes = .error e) : step s = .next s.raiseUnknown := by
  rw [step, hrun, State.fetch, hd]

end Fetch

/-- Settles O6: the three bytes are those the step fetches. -/
theorem stepRunsDecodedInstruction : Obligations.StepRunsDecodedInstruction := fun _ _ _ => step_of_decode

/-- Settles O7: the encoding begins the bytes fetched, and they decode to the instruction. -/
theorem stepRunsInstructionInMemory : Obligations.StepRunsInstructionInMemory := by
  intro s i hrun hc hmem
  obtain ⟨rest, hrest⟩ := State.isPrefix_fetchBytes (encode_length_le s.cfg i) hmem
  exact step_of_decode hrun (hrest ▸ decode_encode_append hc i rest)

/-- Settles O8: the dispatch fails, and the fault raised is the record and the status alone. -/
theorem stepFaultsOnUnknownOpcode : Obligations.StepFaultsOnUnknownOpcode := by
  intro s hrun hfixed hand
  have hd := decodeOpcode_eq_none.mpr ⟨mt fixedOpcodes_perm.mem_iff.mp hfixed, hand⟩
  exact step_of_decode_error hrun (decode_cons_of_unknown hd)

end Sys2Proof.Machine
end

section
/-! SUPPORT. The state that HLT, LDI and PRN answer, and steps at the opcodes of LDI and PRN; then the proofs of the
statements about the three (spec/40_basic.md). -/

namespace Sys2Proof.Machine

section BasicInstructions

variable {s : State} {a ir v : Byte} {r : RegIdx}

/-- The default advance is a jump past the instruction (spec/30_encoding.md R72). -/
theorem State.defaultAdvance_of_length {n : Nat} (h : lengthOfOpcode ir = n) :
    s.defaultAdvance ir = s.jump (s.pc + BitVec.ofNat 8 n) := by
  rw [State.defaultAdvance, h, State.jump]

theorem exec_hlt : exec .hlt s = .next ({ s with status := .halted }.jump (s.pc + 1)) :=
  congrArg _ (State.defaultAdvance_of_length (lengthOfOpcode_hlt s.cfg))

theorem exec_ldi_legal (ha : regIdx a = some r) :
    exec (.ldi a v) s = .next ((s.setReg r v).jump (s.pc + 3)) :=
  (withReg_legal ha).trans (congrArg _ (State.defaultAdvance_of_length (lengthOfOpcode_ldi s.cfg)))

theorem exec_prn_legal (ha : regIdx a = some r) :
    exec (.prn a) s = .next ((s.emit (s.reg r)).jump (s.pc + 2)) :=
  (withReg_legal ha).trans (congrArg _ (State.defaultAdvance_of_length (lengthOfOpcode_prn s.cfg)))

/-! ### Steps at LDI and at PRN -/

/-- The opcode byte of LDI decodes to LDI, whatever AND_OPCODE is. -/
theorem fetchBytes_decode_ldi (hop : s.mem.read s.pc = 0x82#8) :
    decode s.cfg s.fetchBytes = .ok (.ldi (s.mem.read (s.pc + 1)) (s.mem.read (s.pc + 2)), []) := by
  rw [State.fetchBytes, hop]
  rfl

/-- The opcode byte of PRN decodes to PRN, whatever AND_OPCODE is. -/
theorem fetchBytes_decode_prn (hop : s.mem.read s.pc = 0x47#8) :
    decode s.cfg s.fetchBytes = .ok (.prn (s.mem.read (s.pc + 1)), [s.mem.read (s.pc + 2)]) := by
  rw [State.fetchBytes, hop]
  rfl

theorem step_ldi (hrun : s.status = .running) (hop : s.mem.read s.pc = 0x82#8)
    (ha : regIdx (s.mem.read (s.pc + 1)) = some r) :
    step s = .next ((s.setReg r (s.mem.read (s.pc + 2))).jump (s.pc + 3)) :=
  (step_of_decode hrun (fetchBytes_decode_ldi hop)).trans (exec_ldi_legal ha)

theorem step_prn (hrun : s.status = .running) (hop : s.mem.read s.pc = 0x47#8)
    (ha : regIdx (s.mem.read (s.pc + 1)) = some r) :
    step s = .next ((s.emit (s.reg r)).jump (s.pc + 2)) :=
  (step_of_decode hrun (fetchBytes_decode_prn hop)).trans (exec_prn_legal ha)

end BasicInstructions

/-- Settles O14: LDI leaves memory alone, so PRN is found behind it, and PRN reads the register LDI wrote. -/
theorem ldiThenPrnEmitsImmediate : Obligations.LdiThenPrnEmitsImmediate := by
  intro s a v hrun ha hop hreg himm hop' hreg'
  obtain ⟨r, hr⟩ : ∃ r, regIdx a = some r := ⟨_, regIdx_of_lt ha⟩
  have hldi := step_ldi hrun hop (hreg ▸ hr)
  rw [himm] at hldi
  have hnext : s.pc + 3 + 1 = s.pc + 4 := BitVec.add_assoc s.pc 3 1
  have hr' : regIdx (s.mem.read (s.pc + 3 + 1)) = some r := by rw [hnext, hreg', hr]
  have hprn := step_prn (s := (s.setReg r v).jump (s.pc + 3)) hrun hop' hr'
  exact ⟨_, (run_succ_of_next 1 hldi).trans (run_succ_of_next 0 hprn), by simp, hrun, BitVec.add_assoc s.pc 3 2⟩

/-- Settles O11: HLT's advance is by one. -/
theorem hltHalts : Obligations.HltHalts := fun _ => exec_hlt

/-- Settles O12: the operand byte names the register, and LDI's advance is by three. -/
theorem ldiLoadsImmediate : Obligations.LdiLoadsImmediate := fun _ _ _ _ ha => exec_ldi_legal (regIdx_eq_some.mpr ha)

/-- Settles O13: the operand byte names the register, and PRN's advance is by two. -/
theorem prnEmitsRegister : Obligations.PrnEmitsRegister := fun _ _ _ ha => exec_prn_legal (regIdx_eq_some.mpr ha)

end Sys2Proof.Machine
end

section
/-! SUPPORT. The ALU's arithmetic modulo 256, CMP's flags as one record of comparisons, and the state that the four ALU
instructions answer; then the proofs of the statements about them (spec/41_alu.md). -/

namespace Sys2Proof.Machine

section Alu

variable {s : State} {a b ir v : Byte} {ra rb : RegIdx} {op : AluOp}

/-! ### The operations on bytes (R93, R95) -/

theorem ofNat_toNat_add_mod (a b : Byte) : BitVec.ofNat 8 ((a.toNat + b.toNat) % 256) = a + b :=
  BitVec.eq_of_toNat_eq (by simp)

theorem ofNat_toNat_mul_mod (a b : Byte) : BitVec.ofNat 8 ((a.toNat * b.toNat) % 256) = a * b :=
  BitVec.eq_of_toNat_eq (by simp)

/-- A sum read as a signed number is off by a multiple of 256 from the signed sum. -/
theorem toInt_add_sub_emod (a b : Byte) : ((a + b).toInt - (a.toInt + b.toInt)) % 256 = 0 := by
  rw [BitVec.toInt_add]
  exact Int.emod_eq_zero_of_dvd Int.dvd_bmod_sub_self

/-- A product read as a signed number is off by a multiple of 256 from the signed product. -/
theorem toInt_mul_sub_emod (a b : Byte) : ((a * b).toInt - a.toInt * b.toInt) % 256 = 0 := by
  rw [BitVec.toInt_mul]
  exact Int.emod_eq_zero_of_dvd Int.dvd_bmod_sub_self

/-- CMP's flags, each by its own unsigned comparison. -/
theorem compareFlags_eq (a b : Byte) :
    compareFlags a b = { L := decide (a.toNat < b.toNat)
                         G := decide (b.toNat < a.toNat)
                         E := decide (a.toNat = b.toNat) } := by
  simp only [compareFlags, BitVec.lt_def]
  split_ifs with hlt hgt
  · simp [hlt, hlt.not_gt, hlt.ne]
  · simp [hlt, hgt, hgt.ne']
  · simp [le_antisymm (not_lt.mp hgt) (not_lt.mp hlt)]

/-- ADD and MUL do not see the order of their operands. -/
theorem alu_value_comm (hop : op = .add ∨ op = .mul) (a b : Byte) :
    ∃ v, alu op a b = .value v ∧ alu op b a = .value v := by
  obtain rfl | rfl := hop
  · exact ⟨a + b, rfl, congrArg _ (BitVec.add_comm b a)⟩
  · exact ⟨a * b, rfl, congrArg _ (BitVec.mul_comm b a)⟩

/-! ### The operations on the state (R90) -/

theorem State.aluApply_of_value (h : alu op (s.reg ra) (s.reg rb) = .value v) :
    s.aluApply op ra rb = s.setReg ra v := by
  rw [State.aluApply, h]

@[simp] theorem State.aluApply_pc : (s.aluApply op ra rb).pc = s.pc := by
  cases op <;> rfl

theorem State.aluApply_add_mod :
    s.aluApply .add ra rb = s.setReg ra (BitVec.ofNat 8 (((s.reg ra).toNat + (s.reg rb).toNat) % 256)) := by
  rw [ofNat_toNat_add_mod, State.aluApply_add]

theorem State.aluApply_mul_mod :
    s.aluApply .mul ra rb = s.setReg ra (BitVec.ofNat 8 (((s.reg ra).toNat * (s.reg rb).toNat) % 256)) := by
  rw [ofNat_toNat_mul_mod, State.aluApply_mul]

/-! ### The instructions at two legal register bytes (R91 to R94) -/

theorem aluInstr_legal (hlen : lengthOfOpcode ir = 3) (ha : regIdx a = some ra) (hb : regIdx b = some rb) :
    aluInstr ir op a b s = .next ((s.aluApply op ra rb).jump (s.pc + 3)) := by
  rw [aluInstr, withRegs_legal ha hb, State.defaultAdvance_of_length hlen, State.aluApply_pc]
  rfl

theorem exec_mul_legal (ha : regIdx a = some ra) (hb : regIdx b = some rb) :
    exec (.mul a b) s = .next ((s.aluApply .mul ra rb).jump (s.pc + 3)) :=
  aluInstr_legal (lengthOfOpcode_mul s.cfg) ha hb

theorem exec_add_legal (ha : regIdx a = some ra) (hb : regIdx b = some rb) :
    exec (.add a b) s = .next ((s.aluApply .add ra rb).jump (s.pc + 3)) :=
  aluInstr_legal (lengthOfOpcode_add s.cfg) ha hb

theorem exec_cmp_legal_jump (ha : regIdx a = some ra) (hb : regIdx b = some rb) :
    exec (.cmp a b) s = .next ((s.aluApply .cmp ra rb).jump (s.pc + 3)) :=
  aluInstr_legal (lengthOfOpcode_cmp s.cfg) ha hb

theorem exec_and_legal (hc : s.cfg.legal = true) (ha : regIdx a = some ra) (hb : regIdx b = some rb) :
    exec (.and a b) s = .next ((s.aluApply .and ra rb).jump (s.pc + 3)) :=
  aluInstr_legal (lengthOfOpcode_and hc) ha hb

end Alu

/-- Settles O19: signed readings differ by multiples of 256, and an exchange leaves the value as it is. -/
theorem arithmeticWrapsModulo256 : Obligations.ArithmeticWrapsModulo256 := by
  refine ⟨fun a b => ⟨a + b, a * b, rfl, rfl, BitVec.toNat_add a b, BitVec.toNat_mul a b, toInt_add_sub_emod a b,
    toInt_mul_sub_emod a b, ?_⟩, fun s ra rb op hop hne => ?_⟩
  · simp only [alu, compareFlags_eq, BitVec.toNat_inj]
  · obtain ⟨v, hab, hba⟩ := alu_value_comm hop (s.reg ra) (s.reg rb)
    rw [State.aluApply_of_value hab, State.aluApply_of_value hba, State.reg_setReg_same, State.reg_setReg_same]
    exact ⟨rfl, s.reg_setReg_other hne.symm v, s.reg_setReg_other hne v⟩

/-- Settles O15: each operation's write, and the list of the operations. -/
theorem aluContract : Obligations.AluContract := by
  refine ⟨fun s ra rb => ⟨State.aluApply_add_mod, State.aluApply_mul_mod, State.aluApply_and, ?_⟩, fun op => ?_⟩
  · rw [State.aluApply_cmp, compareFlags_eq]
    rfl
  · cases op <;> decide

/-- Settles O16: both operand bytes name registers, and the ALU's result is the one modulo 256. -/
theorem mulAddWriteResult : Obligations.MulAddWriteResult := by
  intro s a b ra rb ha hb
  rw [exec_mul_legal (regIdx_eq_some.mpr ha) (regIdx_eq_some.mpr hb), State.aluApply_mul_mod,
    exec_add_legal (regIdx_eq_some.mpr ha) (regIdx_eq_some.mpr hb), State.aluApply_add_mod]
  exact ⟨rfl, rfl⟩

/-- Settles O17: of the three comparisons exactly one holds, and its flag is set. -/
theorem cmpSetsOneFlag : Obligations.CmpSetsOneFlag := by
  intro s a b ra rb ha hb
  refine ⟨compareFlags s.regs[ra.val] s.regs[rb.val],
    exec_cmp_legal_jump (regIdx_eq_some.mpr ha) (regIdx_eq_some.mpr hb), ?_⟩
  rw [compareFlags_eq]
  refine ⟨fun hlt => ?_, fun hgt => ?_, fun heq => ?_⟩
  · simp [hlt, hlt.not_gt, hlt.ne]
  · simp [hgt, hgt.not_gt, hgt.ne']
  · simp [heq]

/-- Settles O18: bit k of the bitwise and is the and of the bits k, and a legal AND_OPCODE has length 3. -/
theorem andWritesResult : Obligations.AndWritesResult := fun s _ _ ra rb hc ha hb =>
  ⟨s.reg ra &&& s.reg rb, fun _ _ => BitVec.getLsbD_and,
    exec_and_legal hc (regIdx_eq_some.mpr ha) (regIdx_eq_some.mpr hb)⟩

end Sys2Proof.Machine
end

section
/-! SUPPORT. When the stack guard stops a move of SP, what the guarded instructions answer on either side of it, and a
push undone by a pop; then the proofs of the statements about the stack (spec/42_stack.md). -/

namespace Sys2Proof.Machine

section Stack

variable {s : State} {a ir v : Byte} {d r : RegIdx}

/-! ### SP modulo 256 (R100) -/

theorem ofNat_toNat_add_255_mod (x : Byte) : BitVec.ofNat 8 ((x.toNat + 255) % 256) = x - 1 := by bv_omega

theorem ofNat_toNat_add_one_mod (x : Byte) : BitVec.ofNat 8 ((x.toNat + 1) % 256) = x + 1 := by bv_omega

/-- The decrement wraps exactly where the increment of its result does. -/
theorem sub_one_eq_0xFF_iff (x : Byte) : x - 1 = 0xFF#8 ↔ x = 0x00#8 := by bv_omega

theorem State.decSp_reg : s.decSp.reg r = if r = spIdx then s.sp - 1 else s.reg r :=
  (s.reg_setReg spIdx r _).trans (if_congr eq_comm rfl rfl)

/-- POP's register write reaches SP only for POP R7 (R104). -/
theorem State.popInto_sp : (s.popInto d).sp = if d = spIdx then s.topOfStack else s.sp := s.reg_setReg d spIdx _

theorem State.popInto_incSp_regs :
    (s.popInto d).incSp.regs =
      if d = spIdx then s.regs.set spIdx.val (s.topOfStack + 1)
      else (s.regs.set d.val s.topOfStack d.isLt).set spIdx.val (s.sp + 1) := by
  rw [State.incSp, State.setReg_regs, State.popInto_sp, State.popInto, State.setReg_regs]
  split_ifs with hd
  · rw [hd, Vector.set_set]
  · rfl

/-! ### The guard (R105) -/

theorem State.pushOverflows_iff : s.pushOverflows = true ↔ s.cfg.stackGuard = true ∧ s.sp = 0x00#8 := by
  simp [State.pushOverflows]

theorem State.popUnderflows_iff : s.popUnderflows = true ↔ s.cfg.stackGuard = true ∧ s.sp = 0xFF#8 := by
  simp [State.popUnderflows]

/-- POP's guard looks at the value to be incremented: the popped byte for POP R7, else SP. -/
theorem State.popInto_popUnderflows_iff :
    (s.popInto d).popUnderflows = true ↔
      s.cfg.stackGuard = true ∧ ((d ≠ spIdx ∧ s.sp = 0xFF#8) ∨ (d = spIdx ∧ s.topOfStack = 0xFF#8)) := by
  rw [State.popInto_popUnderflows]
  by_cases hd : d = spIdx
  · simp [hd]
  · simp [hd]

theorem withPush_of_overflows {k : State → Result} (ho : s.pushOverflows = true) :
    withPush ir v s k = .next (s.raise .stackOverflow ir none) := if_pos ho

/-! ### The instructions where the guard stops them (R123, R124) -/

theorem exec_push_overflow (ha : regIdx a = some r) (ho : s.pushOverflows = true) :
    exec (.push a) s = .next (s.raise .stackOverflow (opcode s.cfg .push) none) :=
  (withReg_legal ha).trans (withPush_of_overflows ho)

theorem exec_call_overflow (ha : regIdx a = some r) (ho : s.pushOverflows = true) :
    exec (.call a) s = .next (s.raise .stackOverflow (opcode s.cfg .call) none) :=
  (withReg_legal ha).trans (withPush_of_overflows ho)

theorem exec_pop_underflow (ha : regIdx a = some d) (hu : (s.popInto d).popUnderflows = true) :
    exec (.pop a) s = .next (s.raise .stackUnderflow (opcode s.cfg .pop) none) :=
  (withReg_legal ha).trans (if_pos hu)

theorem exec_ret_underflow (hu : s.popUnderflows = true) :
    exec .ret s = .next (s.raise .stackUnderflow (opcode s.cfg .ret) none) := if_pos hu

/-! ### PUSH and POP where it does not (R103, R104) -/

theorem exec_push_legal_jump (ha : regIdx a = some r) (ho : s.pushOverflows = false) :
    exec (.push a) s = .next ((s.pushByte (s.decSp.reg r)).jump (s.pc + 2)) :=
  (exec_push_legal ha ho).trans (congrArg _ (State.defaultAdvance_of_length (lengthOfOpcode_push s.cfg)))

theorem exec_pop_legal_jump (ha : regIdx a = some d) (hu : (s.popInto d).popUnderflows = false) :
    exec (.pop a) s = .next ((s.popInto d).incSp.jump (s.pc + 2)) :=
  ((withReg_legal ha).trans (if_neg (Bool.eq_false_iff.mp hu))).trans
    (congrArg _ (State.defaultAdvance_of_length (lengthOfOpcode_pop s.cfg)))

/-! ### A pop after a push of the same register -/

theorem State.decSp_incSp_regs (s : State) : s.decSp.incSp.regs = s.regs := by
  rw [State.incSp, State.decSp_sp, sub_add_cancel, State.setReg_regs, State.decSp, State.setReg_regs, Vector.set_set]
  exact Vector.set_getElem_self _

/-- The pop puts back the value the register had after the decrement, so only the decrement is left. -/
theorem State.pushByte_popInto_regs (h : s.mem.wf = true) :
    ((s.pushByte (s.decSp.reg r)).popInto r).regs = s.decSp.regs := by
  rw [State.popInto, State.pushByte_topOfStack h]
  exact Vector.set_getElem_self _

theorem State.incSp_regs_congr {t : State} (h : s.regs = t.regs) : s.incSp.regs = t.incSp.regs := by
  rw [State.incSp, State.incSp, State.setReg_regs, State.setReg_regs, State.sp, State.sp, State.reg, State.reg, h]

/-- What the push's guard let through, the pop's guard lets back. -/
theorem State.pushByte_popInto_popUnderflows (h : s.mem.wf = true) :
    ((s.pushByte (s.decSp.reg r)).popInto r).popUnderflows = s.pushOverflows := by
  have hsp : ((s.pushByte (s.decSp.reg r)).popInto r).sp = s.sp - 1 := by
    rw [State.sp, State.reg, State.pushByte_popInto_regs h]
    exact s.decSp_sp
  rw [Bool.eq_iff_iff, State.popUnderflows_iff, State.pushOverflows_iff, hsp, sub_one_eq_0xFF_iff]
  rfl

end Stack

/-- Settles O23: the pop reads back the byte pushed and increments what the push decremented. -/
theorem pushThenPopRestores : Obligations.PushThenPopRestores := by
  intro s a ha hwf hguard
  obtain ⟨r, hr⟩ : ∃ r, regIdx a = some r := ⟨_, regIdx_of_lt ha⟩
  have ho : s.pushOverflows = false := State.pushOverflows_eq_false.mpr hguard
  have hu := (State.pushByte_popInto_popUnderflows (r := r) hwf).trans ho
  refine ⟨_, _, exec_push_legal_jump hr ho, exec_pop_legal_jump hr hu, ?_, BitVec.add_assoc s.pc 2 2⟩
  exact (State.incSp_regs_congr (State.pushByte_popInto_regs hwf)).trans s.decSp_incSp_regs

/-- Settles O37: the guard's condition in each case, and the record of the fault it raises. -/
theorem stackGuardFaults : Obligations.StackGuardFaults := by
  intro s a r hg ha
  have hr := regIdx_eq_some.mpr ha
  refine ⟨fun hsp => ?_, fun hv => ?_, fun hsp => ?_⟩
  · have ho := State.pushOverflows_iff.mpr ⟨hg, hsp⟩
    exact ⟨exec_push_overflow hr ho, exec_call_overflow hr ho⟩
  · exact exec_pop_underflow hr (State.popInto_popUnderflows_iff.mpr ⟨hg, hv⟩)
  · exact exec_ret_underflow (State.popUnderflows_iff.mpr ⟨hg, hsp⟩)

/-- Settles O20: the guard's conditions, and SP's arithmetic modulo 256. -/
theorem stackPrimitives : Obligations.StackPrimitives := by
  refine fun s ir v => ⟨fun k => ?_, fun k => ?_⟩
  · rw [ofNat_toNat_add_255_mod]
    refine if_congr (State.pushOverflows_iff.trans (and_congr_right' BitVec.toNat_inj.symm)) rfl (congrArg k ?_)
    exact s.pushByte_eq v
  · rw [ofNat_toNat_add_one_mod]
    exact if_congr (State.popUnderflows_iff.trans (and_congr_right' BitVec.toNat_inj.symm)) rfl rfl

/-- Settles O21: the register is read after the decrement, which only R7 sees. -/
theorem pushStoresRegister : Obligations.PushStoresRegister := by
  intro s a r ha hguard
  rw [exec_push_legal_jump (regIdx_eq_some.mpr ha) (State.pushOverflows_eq_false.mpr hguard), State.pushByte_eq,
    State.decSp_reg]
  rfl

/-- Settles O22: the increment follows the register's write, which only R7 sees. -/
theorem popLoadsRegister : Obligations.PopLoadsRegister := by
  intro s a d ha hguard
  have hu := Bool.eq_false_iff.mpr (mt State.popInto_popUnderflows_iff.mp hguard)
  rw [exec_pop_legal_jump (regIdx_eq_some.mpr ha) hu, State.jump, State.popInto_incSp_regs]
  rfl

end Sys2Proof.Machine
end

section
/-! SUPPORT. The state that each control transfer answers where no fault stops it, steps at the opcode of JMP, and a
return from a call; then the proofs of the statements about the five (spec/43_control_flow.md). -/

namespace Sys2Proof.Machine

section ControlFlow

variable {s t : State} {a ir : Byte} {r : RegIdx}

/-! ### The transfers where no fault stops them (R111 to R115) -/

theorem exec_call_legal (ha : regIdx a = some r) (ho : s.pushOverflows = false) :
    exec (.call a) s = .next ((s.pushByte (s.pc + 2)).jump (s.decSp.reg r)) :=
  (withReg_legal ha).trans (if_neg (Bool.eq_false_iff.mp ho))

theorem exec_ret_legal (hu : s.popUnderflows = false) :
    exec .ret s = .next (s.incSp.jump s.topOfStack) := if_neg (Bool.eq_false_iff.mp hu)

theorem exec_jmp_legal (ha : regIdx a = some r) : exec (.jmp a) s = .next (s.jump (s.reg r)) := withReg_legal ha

/-- A conditional jump of length 2 writes `pc` alone, whether it is taken or not. -/
theorem State.branch_of_length {taken : Bool} (h : lengthOfOpcode ir = 2) :
    s.branch ir taken r = s.jump (if taken then s.reg r else s.pc + 2) := by
  rw [State.branch_eq_jump, h]
  rfl

theorem exec_jne_legal (ha : regIdx a = some r) :
    exec (.jne a) s = .next (s.jump (if s.flags.E = false then s.reg r else s.pc + 2)) := by
  rw [exec, execJne, withReg_legal ha, State.branch_of_length (lengthOfOpcode_jne s.cfg)]
  simp only [Bool.not_eq_true']

theorem exec_jeq_legal (ha : regIdx a = some r) :
    exec (.jeq a) s = .next (s.jump (if s.flags.E = true then s.reg r else s.pc + 2)) := by
  rw [exec, execJeq, withReg_legal ha, State.branch_of_length (lengthOfOpcode_jeq s.cfg)]

/-! ### Steps at JMP -/

/-- The opcode byte of JMP decodes to JMP, whatever AND_OPCODE is. -/
theorem fetchBytes_decode_jmp (hop : s.mem.read s.pc = 0x54#8) :
    decode s.cfg s.fetchBytes = .ok (.jmp (s.mem.read (s.pc + 1)), [s.mem.read (s.pc + 2)]) := by
  rw [State.fetchBytes, hop]
  rfl

theorem step_jmp (hrun : s.status = .running) (hop : s.mem.read s.pc = 0x54#8)
    (ha : regIdx (s.mem.read (s.pc + 1)) = some r) : step s = .next (s.jump (s.reg r)) :=
  (step_of_decode hrun (fetchBytes_decode_jmp hop)).trans (exec_jmp_legal ha)

/-- A run never leaves a fixed point of the step. -/
theorem run_of_step_self (h : step s = .next s) (k : Nat) : run k s = .next s := by
  induction k with
  | zero => rfl
  | succ k ih => exact (run_succ_of_next k h).trans ih

/-! ### A return from a call -/

@[simp] theorem State.pushByte_sp (v : Byte) : (s.pushByte v).sp = s.sp - 1 := s.decSp_sp

/-- A state with the parameters and SP that a push left pops exactly where the push's guard let it through. -/
theorem State.popUnderflows_of_sp_eq_sub_one (hcfg : t.cfg = s.cfg) (hsp : t.sp = s.sp - 1) :
    t.popUnderflows = s.pushOverflows := by
  rw [Bool.eq_iff_iff, State.popUnderflows_iff, State.pushOverflows_iff, hcfg, hsp, sub_one_eq_0xFF_iff]

end ControlFlow

/-- Settles O27: the CALL left its return address at SP; the RET reads that cell and undoes the decrement. -/
theorem retReturnsAfterCall : Obligations.RetReturnsAfterCall := by
  intro s t t' a hwf ha hguard hcall hcfg hsp hcell
  have ho : s.pushOverflows = false := State.pushOverflows_eq_false.mpr hguard
  obtain rfl := Host.Outcome.next.inj ((exec_call_legal (regIdx_of_lt ha) ho).symm.trans hcall)
  have hdec : t'.sp = s.sp - 1 := by simpa using hsp
  have hu : t'.popUnderflows = false := (State.popUnderflows_of_sp_eq_sub_one (s := s) hcfg hdec).trans ho
  have htop : t'.topOfStack = s.pc + 2 := hcell.trans (State.pushByte_topOfStack hwf)
  refine ⟨_, exec_ret_legal hu, htop, ?_⟩
  rw [State.jump_sp, State.incSp_sp, hdec, sub_add_cancel]

/-- Settles O28: the jump writes the value `pc` has, so the step has the state as a fixed point. -/
theorem jumpToSelfRunsForever : Obligations.JumpToSelfRunsForever := by
  intro s a r hrun ha hop hreg hself
  have hjmp := step_jmp hrun hop (hreg ▸ regIdx_eq_some.mpr ha)
  rw [hself] at hjmp
  exact run_of_step_self hjmp

/-- Settles O24: the target is read after the decrement, which only R7 sees. -/
theorem callPushesReturnAddress : Obligations.CallPushesReturnAddress := by
  intro s a r ha hguard
  rw [exec_call_legal (regIdx_eq_some.mpr ha) (State.pushOverflows_eq_false.mpr hguard), State.pushByte_eq,
    State.decSp_reg]
  rfl

/-- Settles O25: the byte is read before the increment. -/
theorem retPopsPc : Obligations.RetPopsPc := fun _ hguard =>
  exec_ret_legal (Bool.eq_false_iff.mpr (mt State.popUnderflows_iff.mp hguard))

/-- Settles O26: the operand byte names the register, and a jump not taken advances by two. -/
theorem jumpsWritePc : Obligations.JumpsWritePc := fun _ _ _ ha =>
  have hr := regIdx_eq_some.mpr ha
  ⟨exec_jmp_legal hr, exec_jne_legal hr, exec_jeq_legal hr⟩

end Sys2Proof.Machine
end

section
/-! SUPPORT. Which results are no fault, combined over the operations that can raise one, and the conditions on the
bytes at `pc` read off the instruction they decode to; then the proofs of the statements about faults
(spec/60_exceptions.md). -/

namespace Sys2Proof

section OpcodeMap

variable {c : Config} {m : Mnemonic}

/-- With a legal AND_OPCODE no two mnemonics share an opcode byte. -/
theorem opcode_injective (hc : c.legal = true) : Function.Injective (opcode c) := fun m m' h =>
  Option.some.inj <| by rw [← decodeOpcode_opcode hc m, h, decodeOpcode_opcode hc m']

/-- Two bytes are operands enough for every format. -/
theorem exists_decodeOperands_eq_ok (m : Mnemonic) (a b : Byte) :
    ∃ i rest, decodeOperands m [a, b] = .ok (i, rest) := by
  cases m <;> exact ⟨_, _, rfl⟩

end OpcodeMap

end Sys2Proof

namespace Sys2Proof.Machine

section Faults

variable {s t : State} {x : Result} {i : Instr} {a b ir : Byte} {rest : List Byte} {P Q : Prop}

/-! ### Results that answer a state -/

/-- `x` answers a state, and that state is not FAULTED exactly when `P`. -/
def SafeExactlyWhen (P : Prop) (x : Result) : Prop := ∃ t, x = .next t ∧ (t.status ≠ .faulted ↔ P)

theorem SafeExactlyWhen.congr (hx : SafeExactlyWhen P x) (h : P ↔ Q) : SafeExactlyWhen Q x := by rwa [← h]

theorem SafeExactlyWhen.next (h : t.status ≠ .faulted) : SafeExactlyWhen True (.next t) := ⟨t, rfl, iff_true_intro h⟩

theorem SafeExactlyWhen.raise (cause : FaultCause) (detail : Option Byte) :
    SafeExactlyWhen False (.next (s.raise cause ir detail)) := ⟨_, rfl, by simp⟩

/-- A fault raised on a condition, as by the stack guard. -/
theorem SafeExactlyWhen.ite_raise (stop : Bool) {cause : FaultCause} {detail : Option Byte}
    (hx : SafeExactlyWhen True x) :
    SafeExactlyWhen (stop = false) (if stop then .next (s.raise cause ir detail) else x) := by
  cases stop with
  | false => exact hx.congr (by simp)
  | true => exact (raise cause detail).congr (by simp)

/-- A register operand: its byte is legal and what follows is safe. -/
theorem SafeExactlyWhen.withReg {k : RegIdx → Result} (h : ∀ r, a.toNat = r.val → SafeExactlyWhen P (k r)) :
    SafeExactlyWhen (a.toNat < 8 ∧ P) (withReg ir a s k) := by
  cases hr : regIdx a with
  | some r =>
    have ha := regIdx_eq_some.mp hr
    rw [withReg_legal hr]
    exact (h r ha).congr (by simp [ha])
  | none =>
    have ha := regIdx_eq_none.mp hr
    rw [withReg_illegal hr]
    exact (raise _ _).congr (by simp [Nat.not_lt.mpr ha])

/-- A register operand whose byte alone decides. -/
theorem SafeExactlyWhen.withReg_next {f : RegIdx → State} (h : ∀ r, (f r).status ≠ .faulted) :
    SafeExactlyWhen (a.toNat < 8) (Machine.withReg ir a s fun r => .next (f r)) :=
  (withReg fun r _ => next (h r)).congr (by simp)

@[simp] theorem State.aluApply_status (op : AluOp) (ra rb : RegIdx) : (s.aluApply op ra rb).status = s.status := by
  cases op <;> rfl

@[simp] theorem State.branch_status (taken : Bool) (r : RegIdx) : (s.branch ir taken r).status = s.status := by
  rw [State.branch_eq_jump, State.jump_status]

theorem SafeExactlyWhen.aluInstr (op : AluOp) (hs : s.status ≠ .faulted) :
    SafeExactlyWhen (a.toNat < 8 ∧ b.toNat < 8) (aluInstr ir op a b s) :=
  withReg fun _ _ => withReg_next fun _ => by simpa using hs

/-! ### Which executions are safe (R122 to R124) -/

/-- The stack guard stops the instruction (spec/42_stack.md R105); POP's looks at the value to be incremented. -/
def State.guardStops (s : State) : Instr → Bool
  | .push _ => s.pushOverflows
  | .call _ => s.pushOverflows
  | .pop a => s.cfg.stackGuard && (if a = 0x07#8 then s.topOfStack else s.sp) == 0xFF#8
  | .ret => s.popUnderflows
  | _ => false

theorem State.popInto_popUnderflows_eq_guardStops {d : RegIdx} (ha : a.toNat = d.val) :
    (s.popInto d).popUnderflows = s.guardStops (.pop a) := by
  have hd : d = spIdx ↔ a = 0x07#8 := by
    rw [← BitVec.toNat_inj, ha, Fin.ext_iff]
    rfl
  simp only [State.popInto_popUnderflows, State.guardStops, hd]

theorem wellFormed_iff : i.wellFormed = true ↔ ∀ b ∈ i.regOperands, b.toNat < 8 := by
  simp [Instr.wellFormed, legalRegByte]

/-- An instruction raises no fault exactly when its register bytes are legal and the guard does not stop it. -/
theorem exec_safeExactlyWhen (i : Instr) (hs : s.status ≠ .faulted) :
    SafeExactlyWhen (i.wellFormed = true ∧ s.guardStops i = false) (exec i s) := by
  rw [wellFormed_iff]
  cases i with
  | hlt => exact (SafeExactlyWhen.next (by simp)).congr (by simp [Instr.regOperands, State.guardStops])
  | ldi a _ | prn a | jmp a =>
    refine .congr (P := a.toNat < 8) ?_ (by simp [Instr.regOperands, State.guardStops])
    exact .withReg_next fun _ => hs
  | jne a | jeq a =>
    refine .congr (P := a.toNat < 8) ?_ (by simp [Instr.regOperands, State.guardStops])
    exact .withReg_next fun _ => by simpa using hs
  | mul a b | add a b | cmp a b | and a b =>
    refine .congr (P := a.toNat < 8 ∧ b.toNat < 8) ?_ (by simp [Instr.regOperands, State.guardStops])
    exact .aluInstr _ hs
  | push a | call a =>
    refine .congr (P := a.toNat < 8 ∧ s.pushOverflows = false) ?_ (by simp [Instr.regOperands, State.guardStops])
    exact .withReg fun _ _ => .ite_raise _ (.next hs)
  | pop a =>
    refine .congr (P := a.toNat < 8 ∧ s.guardStops (.pop a) = false) ?_ (by simp [Instr.regOperands])
    refine .withReg fun d ha => ?_
    rw [← State.popInto_popUnderflows_eq_guardStops ha]
    exact .ite_raise _ (.next hs)
  | ret =>
    refine .congr (P := s.popUnderflows = false) ?_ (by simp [Instr.regOperands, State.guardStops])
    exact .ite_raise _ (.next hs)

/-! ### The conditions on the bytes at `pc` -/

theorem State.knownOpcode_iff : s.KnownOpcode ↔ decodeOpcode s.cfg (s.mem.read s.pc) ≠ none := by
  rw [Ne, decodeOpcode_eq_none, fixedOpcodes_perm.mem_iff]
  tauto

/-- The byte at `pc` is the opcode of the instruction fetched. -/
theorem State.read_pc_of_decode (hd : decode s.cfg s.fetchBytes = .ok (i, rest)) :
    s.mem.read s.pc = opcode s.cfg i.mnemonic := eq_opcode_of_decodeOpcode (decode_cons_eq_ok.mp hd).1

/-- The bytes after it begin with the operand bytes. -/
theorem State.operandBytes_of_decode (hd : decode s.cfg s.fetchBytes = .ok (i, rest)) :
    [s.mem.read (s.pc + 1), s.mem.read (s.pc + 2)] = i.operandBytes ++ rest := (decode_cons_eq_ok.mp hd).2

theorem State.read_pc_eq_opcode_iff (hc : s.cfg.legal = true) (hd : decode s.cfg s.fetchBytes = .ok (i, rest))
    {m : Mnemonic} : s.mem.read s.pc = opcode s.cfg m ↔ i.mnemonic = m := by
  rw [State.read_pc_of_decode hd, (opcode_injective hc).eq_iff]

theorem State.read_pc_mem_opcodes_iff (hc : s.cfg.legal = true) (hd : decode s.cfg s.fetchBytes = .ok (i, rest))
    {ms : List Mnemonic} : s.mem.read s.pc ∈ ms.map (opcode s.cfg) ↔ i.mnemonic ∈ ms := by
  rw [State.read_pc_of_decode hd, List.mem_map_of_injective (opcode_injective hc)]

/-- Which operand bytes are registers is said by the mnemonic (spec/30_encoding.md R62). -/
theorem State.legalRegBytes_iff (hc : s.cfg.legal = true) (hd : decode s.cfg s.fetchBytes = .ok (i, rest)) :
    s.LegalRegBytes ↔ i.wellFormed = true := by
  have hnone := State.read_pc_mem_opcodes_iff hc hd (ms := [.hlt, .ret])
  have htwo := State.read_pc_mem_opcodes_iff hc hd (ms := [.add, .mul, .cmp, .and])
  have hops := State.operandBytes_of_decode hd
  rw [wellFormed_iff]
  refine (and_congr (imp_congr_left (not_congr hnone)) (imp_congr_left htwo)).trans ?_
  cases i with
  | hlt | ret => simp [Instr.mnemonic, Instr.regOperands]
  | ldi a _ | prn a | push a | pop a | call a | jmp a | jne a | jeq a =>
    obtain ⟨rfl, -⟩ := List.cons.inj hops
    simp [Instr.mnemonic, Instr.regOperands]
  | mul a b | add a b | cmp a b | and a b =>
    obtain ⟨rfl, htail⟩ := List.cons.inj hops
    obtain ⟨rfl, -⟩ := List.cons.inj htail
    simp [Instr.mnemonic, Instr.regOperands]

/-- Which guard applies is said by the mnemonic, and for POP by the operand byte too (spec/42_stack.md R105). -/
theorem State.guardAllows_iff (hc : s.cfg.legal = true) (hd : decode s.cfg s.fetchBytes = .ok (i, rest)) :
    s.GuardAllows ↔ s.guardStops i = false := by
  have hpush := State.read_pc_mem_opcodes_iff hc hd (ms := [.push, .call])
  have hret := State.read_pc_eq_opcode_iff hc hd (m := .ret)
  have hpop := State.read_pc_eq_opcode_iff hc hd (m := .pop)
  refine (imp_congr_right fun _ =>
    and_congr (imp_congr_left hpush) (and_congr (imp_congr_left hret) (imp_congr_left hpop))).trans ?_
  cases i with
  | push a | call a => simp [Instr.mnemonic, State.guardStops, State.pushOverflows]
  | ret => simp [Instr.mnemonic, State.guardStops, State.popUnderflows]
  | pop a =>
    obtain ⟨rfl, -⟩ := List.cons.inj (State.operandBytes_of_decode hd)
    simp [Instr.mnemonic, State.guardStops, State.topOfStack]
  | hlt | ldi | prn | mul | add | cmp | and | jmp | jne | jeq => simp [Instr.mnemonic, State.guardStops]

end Faults

/-- Settles O38: a fault is raised by the dispatch or by the instruction fetched, whose opcode is the byte at `pc`. -/
theorem faultsArePrecise : Obligations.FaultsArePrecise := by
  intro s t h hfaulted
  obtain ⟨hrun, ⟨i, rest, hd, hi⟩ | ⟨-, rfl⟩⟩ := step_next h
  · obtain ⟨cause, detail, rfl, -, -, hdetail, hguard⟩ | he := exec_next hi
    · exact ⟨cause, detail, by rw [State.read_pc_of_decode hd, State.raise], hdetail, hguard⟩
    · exact absurd hfaulted (he.status_ne_faulted (by simp [hrun]))
  · exact ⟨.unknownInstruction, none, rfl, by simp, by simp⟩

/-- Settles O48: an unknown opcode faults, and a known one decodes to an instruction whose faults are known. -/
theorem safeStepNeverFaults : Obligations.SafeStepNeverFaults := by
  rintro s ⟨-, -, -, hc⟩ hrun
  change SafeExactlyWhen s.SafeStep (step s)
  cases hop : decodeOpcode s.cfg (s.mem.read s.pc) with
  | none =>
    have hk : ¬s.KnownOpcode := mt State.knownOpcode_iff.mp (not_not.mpr hop)
    rw [step_of_decode_error hrun (decode_cons_of_unknown hop)]
    exact (SafeExactlyWhen.raise _ _).congr (by simp only [hk, State.SafeStep, false_and])
  | some m =>
    have hk : s.KnownOpcode := State.knownOpcode_iff.mpr (by simp [hop])
    obtain ⟨i, rest, hd⟩ : ∃ i rest, decode s.cfg s.fetchBytes = .ok (i, rest) := by
      rw [State.fetchBytes, decode, hop]
      exact exists_decodeOperands_eq_ok m _ _
    rw [step_of_decode hrun hd, State.SafeStep, State.legalRegBytes_iff hc hd, State.guardAllows_iff hc hd]
    exact (exec_safeExactlyWhen i (by simp [hrun])).congr (by simp only [hk, true_and])

end Sys2Proof.Machine
end

section
/-! SUPPORT. That an instruction always answers, the invariant at launch, and how a step can leave RUNNING; then the
proofs of the statements about whole runs (spec/70_reset_and_hazards.md). -/

namespace Sys2Proof.Machine

section Runs

variable {s t : State} {image : List Byte} {c : Config}

/-! ### The launch (R140 to R143) -/

/-- The load writes memory and nothing else (R142). -/
theorem State.load_eq (h : s.load image = some t) : t = { s with mem := t.mem } := by
  unfold State.load at h
  split_ifs at h
  cases h
  rfl

theorem State.resetWith_inv (hc : c.legal = true) : (State.resetWith c).Inv :=
  ⟨State.resetWith_mem_wf c, by simp [State.resetWith], rfl, hc⟩

/-- The load keeps the invariant, since it leaves the status, the record, the flags and the parameters alone. -/
theorem State.load_inv (hs : s.Inv) (h : s.load image = some t) : t.Inv := by
  obtain ⟨hmem, hrest⟩ := hs
  have hwf := State.load_mem_wf hmem h
  rw [State.load_eq h]
  exact ⟨hwf, hrest⟩

theorem State.load_cfg (h : s.load image = some t) : t.cfg = s.cfg := by
  rw [State.load_eq h]

/-! ### The end of a run (R145) -/

/-- A step that ends in HALTED ran the byte of HLT, and a step that ends in FAULTED left a record; any other step
leaves the machine RUNNING. -/
theorem step_status (h : step s = .next t) :
    t.status = .running ∨ (t.status = .halted ∧ s.mem.read s.pc = 0x01#8) ∨
      (t.status = .faulted ∧ t.fault.isSome = true) := by
  obtain ⟨hrun, ⟨i, rest, hd, hi⟩ | ⟨-, rfl⟩⟩ := step_next h
  · obtain ⟨hst, -⟩ | ⟨rfl, hst, -⟩ | ⟨hst, hft, -⟩ := exec_status hi
    · exact .inl (hst.trans hrun)
    · exact .inr (.inl ⟨hst, State.read_pc_of_decode hd⟩)
    · exact .inr (.inr ⟨hst, hft⟩)
  · exact .inr (.inr ⟨rfl, rfl⟩)

end Runs

/-- Settles O10: the step raises UnknownInstruction or executes what it decoded, and every execution answers. -/
theorem runningMachineAlwaysSteps : Obligations.RunningMachineAlwaysSteps := by
  intro s hrun
  cases hd : decode s.cfg s.fetchBytes with
  | error e => exact ⟨_, step_of_decode_error hrun hd⟩
  | ok p =>
    obtain ⟨i, rest⟩ := p
    obtain ⟨t, ht, -⟩ := exec_safeExactlyWhen i (s := s) (by simp [hrun])
    exact ⟨t, (step_of_decode hrun hd).trans ht⟩

/-- Settles O45: reset has the invariant, the load and every step keep it, and they keep the parameters too. -/
theorem reachableStatesHaveInvariant : Obligations.ReachableStatesHaveInvariant := by
  intro c s hc hs
  refine hs.induct (P := fun s => s.Inv ∧ s.cfg = c) (fun image u hu => ?_) fun u v hu huv => ?_
  · exact ⟨State.load_inv (State.resetWith_inv hc) hu, State.load_cfg hu⟩
  · obtain ⟨hinv, hcfg⟩ := hu
    exact ⟨stepKeepsInvariant u v hinv huv, (step_cfg huv).trans hcfg⟩

/-- Settles O49: a step ends RUNNING, or HALTED at HLT's byte, or FAULTED with a record. -/
theorem runEndsByHltOrFault : Obligations.RunEndsByHltOrFault := fun _ _ h hne =>
  (step_status h).resolve_left hne

end Sys2Proof.Machine
end

section
/-! SUPPORT. Which register operand byte is the first bad one and the fault it raises, and what a load of bytes leaves to
read; then the proofs of the statements about bad operands, reset and the launch (spec/30_encoding.md R63,
spec/10_state.md R30, spec/70_reset_and_hazards.md R142). -/

namespace Sys2Proof.Machine

section OperandsAndLaunch

variable {s t : State} {i : Instr} {a b x ir : Byte} {m : Memory} {image : List Byte}

/-! ### The first bad register operand byte (R63, R128) -/

/-- The first of the register operand bytes `ops` that names no register. -/
def firstBadRegByte (ops : List Byte) : Option Byte := ops.find? fun x => decide (7 < x.toNat)

theorem firstBadRegByte_cons_eq_some {ops : List Byte} :
    firstBadRegByte (a :: ops) = some x ↔ (7 < a.toNat ∧ a = x) ∨ (¬7 < a.toNat ∧ firstBadRegByte ops = some x) := by
  simp [firstBadRegByte, List.find?_cons_eq_some]

theorem wellFormed_iff_firstBadRegByte : i.wellFormed = true ↔ firstBadRegByte i.regOperands = none := by
  simp only [wellFormed_iff, firstBadRegByte, List.find?_eq_none, decide_eq_true_eq, Nat.not_lt, Nat.lt_succ_iff]

theorem withReg_of_firstBadRegByte {k : RegIdx → Result} (h : firstBadRegByte [a] = some x) :
    withReg ir a s k = .next (s.raise .invalidRegisterIndex ir (some x)) := by
  obtain ⟨ha, rfl⟩ | ⟨-, h⟩ := firstBadRegByte_cons_eq_some.mp h
  · exact withReg_illegal (regIdx_eq_none.mpr ha)
  · cases h

/-- Of two register operands the second is looked at only where the first is legal. -/
theorem withRegs_of_firstBadRegByte {k : RegIdx → RegIdx → Result} (h : firstBadRegByte [a, b] = some x) :
    withRegs ir a b s k = .next (s.raise .invalidRegisterIndex ir (some x)) := by
  obtain ⟨ha, rfl⟩ | ⟨ha, h⟩ := firstBadRegByte_cons_eq_some.mp h
  · exact withReg_illegal (regIdx_eq_none.mpr ha)
  · exact (withReg_legal (regIdx_of_lt (by omega))).trans (withReg_of_firstBadRegByte h)

theorem exec_of_firstBadRegByte (h : firstBadRegByte i.regOperands = some x) :
    exec i s = .next (s.raise .invalidRegisterIndex (opcode s.cfg i.mnemonic) (some x)) := by
  cases i with
  | hlt | ret => cases h
  | ldi | prn | push | pop | call | jmp | jne | jeq => exact withReg_of_firstBadRegByte h
  | mul | add | cmp | and => exact withRegs_of_firstBadRegByte h

/-! ### The load (R142) -/

/-- Bytes that are no more than memory holds end before they come round to `addr`, so none overwrites an earlier one. -/
theorem Memory.read_writeBytes (bytes : List Byte) (hm : m.wf = true) (hlen : bytes.length ≤ Config.memSize)
    (addr a : Byte) : (m.writeBytes addr bytes).read a = (bytes[(a - addr).toNat]?).getD (m.read a) := by
  induction bytes generalizing m addr with
  | nil => rfl
  | cons v vs ih =>
    have hvs : vs.length < 256 := hlen
    rw [Memory.writeBytes, ih (Memory.wf_write hm addr v) hvs.le, Memory.read_write hm]
    by_cases ha : addr = a
    · have hlast : (a - (addr + 1)).toNat = 255 := by bv_omega
      have hfirst : (a - addr).toNat = 0 := by bv_omega
      rw [hlast, hfirst, List.getElem?_eq_none (by omega), if_pos ha]
      rfl
    · have hnext : (a - addr).toNat = (a - (addr + 1)).toNat + 1 := by bv_omega
      rw [hnext, List.getElem?_cons_succ, if_neg ha]

theorem State.load_eq_some :
    s.load image = some t ↔
      image.length ≤ Config.memSize ∧ { s with mem := s.mem.writeBytes Config.loadBase image } = t := by
  simp [State.load]

end OperandsAndLaunch

/-- Settles O36: operands are validated in order before anything else, so the first bad byte is the one reported. -/
theorem badRegisterOperandFaults : Obligations.BadRegisterOperandFaults :=
  ⟨fun _ _ _ => exec_of_firstBadRegByte, fun _ => wellFormed_iff_firstBadRegByte⟩

/-- Settles O42: the load writes the image over reset memory from address 0. -/
theorem launchStateHoldsImage : Obligations.LaunchStateHoldsImage := by
  refine fun c image => ⟨?_, fun s h => ⟨State.load_eq h, fun addr => ?_⟩⟩
  · simp only [State.launch, State.load_eq_some, exists_and_left, exists_eq', and_true, Config.memSize]
  · obtain ⟨hlen, rfl⟩ := State.load_eq_some.mp h
    have hread := Memory.read_writeBytes image (State.resetWith_mem_wf c) hlen Config.loadBase addr
    rwa [Config.loadBase, BitVec.sub_zero] at hread

/-- Settles O41: each value as `State.resetWith` gives it; memory with no cell listed reads 0x00. -/
theorem resetValues : Obligations.ResetValues :=
  ⟨rfl, rfl, rfl, Memory.read_nil, rfl, rfl, rfl, rfl⟩

/-- Settles O43: 0xA8 is none of the other opcodes and has operand count 2. -/
theorem resetHasInvariant : Obligations.ResetHasInvariant :=
  ⟨by decide, fun _ => State.resetWith_inv⟩

end Sys2Proof.Machine
end
